-- ==== Sys2Proof/Word.lean ====
section
/-! DEFINITION. The machine's word types (30_encoding.md R70, R78; 10_state.md R28; 00_scope.md R11). -/

namespace Sys2Proof

/-- A command word `c[63:0]` (R70). -/
abbrev Word := BitVec 64

/-- A branch address, `PC_W` = 32 bits (R6, R28). -/
abbrev Pc := BitVec 32

/-- A response word `r[7:0]` (R78), and one byte of a byte-wide transfer (R54). -/
abbrev Byte := BitVec 8

/-- An outcome or a prediction (R11): `true` is Taken = 1, `false` is Not-Taken = 0. -/
abbrev Bit := Bool

end Sys2Proof
end

