-- ==== Sys2Proof/Syntax.lean ====
section
/-! DEFINITION. The commands, one constructor per row of spec/opcode_table.json (30_encoding.md R71–R75). -/

namespace Sys2Proof

/-- The four commands with their operand fields at the widths R80 gives them. `kind`, `g`, `l` and `p`
stay raw fields, because every value of them decodes and it is CONFIGURE that judges them (R73). -/
inductive Instr where
  /-- NOP, format N (R72). -/
  | nop
  /-- CONFIGURE, format C (R73): predictor kind, `ghistoryBits`, `lhistoryBits`, `pcIndexBits`. -/
  | configure (kind : BitVec 4) (g l p : BitVec 8)
  /-- PREDICT, format P (R74): branch address. -/
  | predict (pc : Pc)
  /-- TRAIN, format T (R75): branch address and resolved outcome. -/
  | train (pc : Pc) (o : Bit)
  deriving DecidableEq, Repr

end Sys2Proof
end

