-- ==== Sys2Proof/WellFormed.lean ====
section
/-! DEFINITION. Well-formedness of a command as syntax (30_encoding.md R73, R80). The range of every field is
its bit-vector type, so an operand that does not fit cannot be written down as an `Instr`; the assembler's
operands, which are plain numbers, have their check in Machine/Assembler.lean (R83). -/

namespace Sys2Proof

/-- The check on each command. No format restricts the values of its operand fields: every value of `kind`,
`g`, `l` and `p` decodes (R73), a pc has no alignment rule (R55), and both outcomes are legal (R75). -/
def Instr.wellFormed : Instr → Bool
  | .nop => true
  | .configure _ _ _ _ => true
  | .predict _ => true
  | .train _ _ => true

end Sys2Proof
end

