-- ==== Sys2Proof/Decode.lean ====
section
/-! DEFINITION. Decoding of a command word, total on every 64-bit word (30_encoding.md R86), the encoder, its
inverse (R87), the match and mask of each row (R86), and the byte order of a transfer (20_memory.md R54). -/

namespace Sys2Proof

/-- Why a word is ILLEGAL. The block answers both alike (R261); the cause is the decoder's name for it
(log entry 14). -/
inductive IllegalCause where
  /-- `c[3:0]` in `0x4 .. 0xF` (R77). -/
  | reservedOpcode
  /-- An assigned opcode whose reserved bits are not all 0 (R76). -/
  | reservedBits
  deriving DecidableEq, Repr

/-- What a command word decodes to (R86). -/
inductive Decoded where
  | instr (i : Instr)
  | illegal (cause : IllegalCause)
  deriving DecidableEq, Repr

/-- The opcode field `c[3:0]` (R71). -/
def opField (c : Word) : BitVec 4 := c.extractLsb' 0 4

/-- The `kind` field `c[7:4]` of format C (R73). -/
def kindField (c : Word) : BitVec 4 := c.extractLsb' 4 4

/-- The `g` field `c[15:8]` of format C (R73). -/
def gField (c : Word) : BitVec 8 := c.extractLsb' 8 8

/-- The `l` field `c[23:16]` of format C (R73). -/
def lField (c : Word) : BitVec 8 := c.extractLsb' 16 8

/-- The `p` field `c[31:24]` of format C (R73). -/
def pField (c : Word) : BitVec 8 := c.extractLsb' 24 8

/-- The `pc` field `c[63:32]` of formats P and T (R74, R75, R80). -/
def pcField (c : Word) : Pc := c.extractLsb' 32 32

/-- The outcome bit `c[4]` of format T (R75). -/
def outcomeField (c : Word) : Bit := c.getLsbD 4

/-- Reserved bits `[63:4]` of format N (R72). -/
def reservedN (c : Word) : BitVec 60 := c.extractLsb' 4 60

/-- Reserved bits `[63:32]` of format C (R73). -/
def reservedC (c : Word) : BitVec 32 := c.extractLsb' 32 32

/-- Reserved bits `[31:4]` of format P (R74). -/
def reservedP (c : Word) : BitVec 28 := c.extractLsb' 4 28

/-- Reserved bits `[31:5]` of format T (R75). -/
def reservedT (c : Word) : BitVec 27 := c.extractLsb' 5 27

/-- The decoder of R86. -/
def decode (c : Word) : Decoded :=
  if opField c = 0x0#4 then
    if reservedN c ≠ 0#60 then .illegal .reservedBits else .instr .nop
  else if opField c = 0x1#4 then
    if reservedC c ≠ 0#32 then .illegal .reservedBits
    else .instr (.configure (kindField c) (gField c) (lField c) (pField c))
  else if opField c = 0x2#4 then
    if reservedP c ≠ 0#28 then .illegal .reservedBits else .instr (.predict (pcField c))
  else if opField c = 0x3#4 then
    if reservedT c ≠ 0#27 then .illegal .reservedBits
    else .instr (.train (pcField c) (outcomeField c))
  else .illegal .reservedOpcode

/-- `enc_CONFIGURE(k,g,l,p)` of R87. -/
def encConfigure (kind : BitVec 4) (g l p : BitVec 8) : Word :=
  (p.setWidth 64 <<< 24) ||| (l.setWidth 64 <<< 16) ||| (g.setWidth 64 <<< 8)
    ||| (kind.setWidth 64 <<< 4) ||| 0x1#64

/-- `enc_PREDICT(pc)` of R87. -/
def encPredict (pc : Pc) : Word := (pc.setWidth 64 <<< 32) ||| 0x2#64

/-- `enc_TRAIN(pc, o)` of R87. -/
def encTrain (pc : Pc) (o : Bit) : Word :=
  (pc.setWidth 64 <<< 32) ||| ((BitVec.ofBool o).setWidth 64 <<< 4) ||| 0x3#64

/-- The word of a command (R87). -/
def encode : Instr → Word
  | .nop => 0x0000000000000000#64
  | .configure kind g l p => encConfigure kind g l p
  | .predict pc => encPredict pc
  | .train pc o => encTrain pc o

/-- The `mask` of the command's row (R86, opcode_table.json). -/
def rowMask : Instr → Word
  | .nop => 0xFFFFFFFFFFFFFFFF#64
  | .configure _ _ _ _ => 0xFFFFFFFF0000000F#64
  | .predict _ => 0x00000000FFFFFFFF#64
  | .train _ _ => 0x00000000FFFFFFEF#64

/-- The `match` of the command's row (R86, opcode_table.json). -/
def rowMatch : Instr → Word
  | .nop => 0x0000000000000000#64
  | .configure _ _ _ _ => 0x0000000000000001#64
  | .predict _ => 0x0000000000000002#64
  | .train _ _ => 0x0000000000000003#64

/-- Byte `k` of a command's transfer over a byte-wide channel: bits `[8k+7 : 8k]` (R54). -/
def transferByte (c : Word) (k : Nat) : Byte := c.extractLsb' (8 * k) 8

/-- The eight bytes of a command word in transfer order, byte 0 first (R54, little-endian). -/
def bytesOfWord (c : Word) : List Byte := (List.range 8).map (transferByte c)

/-- The command word eight transferred bytes make up (R54); any other number of bytes is no command word
(log entry 10). -/
def wordOfBytes : List Byte → Option Word
  | [b0, b1, b2, b3, b4, b5, b6, b7] => some (b7 ++ b6 ++ b5 ++ b4 ++ b3 ++ b2 ++ b1 ++ b0)
  | _ => none

/-- The command word whose low `nbits` bits are `w` and whose other bits are 0. -/
def tableWord (nbits w : Nat) : Word := BitVec.ofNat 64 (w % 2 ^ nbits)

/-- The command the decoder reads from a word whose bits are `w`: laid out in the byte order of R54, put
together again and decoded; `none` where the decoder answers ILLEGAL. -/
def decodeTableWord (nbits w : Nat) : Option Instr :=
  match wordOfBytes (bytesOfWord (tableWord nbits w)) with
  | none => none
  | some c =>
    match decode c with
    | .instr i => some i
    | .illegal _ => none

end Sys2Proof
end

