-- ==== Sys2Proof/Config.lean ====
section
/-! DEFINITION. The implementation parameters of the block as a type, and the OPEN ones as constants without a
value (00_scope.md R6). The values the spec fixes are put together with these in Machine/Parameters.lean. -/

namespace Sys2Proof

/-- The values of `PERC_INDEX` (R6, R182). -/
inductive PercIndex where
  | xor
  | pc
  deriving DecidableEq, Repr

/-- The parameters a model of the block takes as arguments (R6), with the limits R6 sets on them.
`PC_W` = 32 is the type `Pc`. -/
structure Params where
  /-- `CTR_BITS`, the source's `n`: the width of every saturating counter. -/
  ctrBits : Nat
  /-- `G_MAX`, the largest legal `ghistoryBits`. -/
  gMax : Nat
  /-- `L_MAX`, the largest legal `lhistoryBits`. -/
  lMax : Nat
  /-- `P_MAX`, the largest legal `pcIndexBits`. -/
  pMax : Nat
  /-- `PERC_INDEX`, the perceptron index function. -/
  percIndex : PercIndex
  /-- `THETA(g)`, the training threshold as a function of `ghistoryBits`. -/
  theta : Nat → Nat
  /-- `W_BITS`: `none` is `UNBOUNDED`, `some w` a two's complement width. -/
  wBits : Option Nat
  /-- R100: `n ≥ 1`. -/
  ctrBits_pos : 1 ≤ ctrBits
  gMax_legal : 1 ≤ gMax ∧ gMax ≤ 32
  lMax_legal : 1 ≤ lMax ∧ lMax ≤ 32
  pMax_legal : 1 ≤ pMax ∧ pMax ≤ 32
  /-- DEDUCED (log entry 5): a two's complement integer has at least one bit. -/
  wBits_pos : ∀ w, wBits = some w → 1 ≤ w

/-- `G_MAX - 1`, OPEN (R6): some number in 0 .. 31, no proof can see which. -/
opaque Config.gMaxPred : Fin 32

/-- `L_MAX - 1`, OPEN (R6). -/
opaque Config.lMaxPred : Fin 32

/-- `P_MAX - 1`, OPEN (R6). -/
opaque Config.pMaxPred : Fin 32

/-- OPEN (R6): `none` stands for `W_BITS` = `UNBOUNDED`, `some k` for `W_BITS` = `k + 1`. -/
opaque Config.wBitsPred : Option Nat

end Sys2Proof
end

