-- ==== Sys2Proof/Machine/Parameters.lean ====
section
/-! DEFINITION. The values of the block's parameters (00_scope.md R6), and THETA's formula (43_perceptron.md
R186). -/

namespace Sys2Proof.Machine

/-- `THETA(g) := (193 * g + 1400) div 100` (R186). -/
def thetaDefault (g : Nat) : Nat := (193 * g + 1400) / 100

/-- The block's parameters (R6): `CTR_BITS` = 2, `PERC_INDEX` = `XOR`, `THETA` the default formula, and the OPEN
ones as the constants of Config.lean within the limits R6 gives (log entry 6). -/
def blockParams : Params where
  ctrBits := 2
  gMax := Config.gMaxPred.val + 1
  lMax := Config.lMaxPred.val + 1
  pMax := Config.pMaxPred.val + 1
  percIndex := .xor
  theta := thetaDefault
  wBits := Config.wBitsPred.map (· + 1)
  ctrBits_pos := by decide
  gMax_legal := ⟨Nat.le_add_left 1 _, Config.gMaxPred.isLt⟩
  lMax_legal := ⟨Nat.le_add_left 1 _, Config.lMaxPred.isLt⟩
  pMax_legal := ⟨Nat.le_add_left 1 _, Config.pMaxPred.isLt⟩
  wBits_pos := by
    intro w h
    obtain ⟨k, -, rfl⟩ := Option.map_eq_some_iff.mp h
    exact Nat.le_add_left 1 k

end Sys2Proof.Machine
end

