-- ==== Sys2Proof/Machine/State.lean ====
section
/-! DEFINITION. The state of the block as the tagged union of 10_state.md R20, the command port and the reset
input as plain data beside it, and the state after reset (70_reset_and_hazards.md R290, R291). -/

namespace Sys2Proof.Machine

/-- MODE (R21). The value 3 is never held: it is no constructor. -/
inductive Mode where
  | unconfigured
  | configured
  | faulted
  deriving DecidableEq, Repr

/-- KIND (R22): the closed set of predictor kinds (R3, R220). -/
inductive Kind where
  | static
  | gshare
  | tournament
  | perceptron
  deriving DecidableEq, Repr

/-- GBITS, LBITS and PBITS are 6-bit registers (R23, R24, R25). -/
abbrev Width := BitVec 6

/-- A table of `2^k` entries: the entries that differ from the table's initial value, as (index, value) pairs
with rising indexes; every entry not listed holds the initial value (log entry 3). It is read and written
through `Table.read` and `Table.write` only. -/
abbrev Table (α : Type) := List (Nat × α)

/-- The gshare predictor's storage: the GSHARE kind's, and the global sub-predictor of TOURNAMENT. -/
structure GshareTables where
  /-- GS_GHR, `UInt_g` (R30). -/
  gsGhr : Nat
  /-- GS_PHT, `2^g` counters `UInt_n` (R31). -/
  gsPht : Table Nat
  deriving DecidableEq, Repr

/-- The local sub-predictor's storage (R150). -/
structure LocalTables where
  /-- T_LHT, `2^p` history registers `UInt_l` (R33). -/
  tLht : Table Nat
  /-- T_LPT, `2^l` counters `UInt_n` (R34). -/
  tLpt : Table Nat
  deriving DecidableEq, Repr

/-- The tournament's storage: the selector and its two named sub-predictors (R20, R150). -/
structure TournamentTables where
  /-- T_META, `2^p` counters `UInt_n` (R32). -/
  tMeta : Table Nat
  /-- T_LHT and T_LPT. -/
  localPred : LocalTables
  /-- GS_GHR and GS_PHT of the embedded gshare. -/
  globalPred : GshareTables
  deriving DecidableEq, Repr

/-- The perceptron's storage. P_BIAS is hardwired (R37): it is `pBias` of Machine/Perceptron.lean. -/
structure PerceptronTables where
  /-- P_GHR, `UInt_g` (R35). -/
  pGhr : Nat
  /-- P_W, `2^g` vectors of `g` signed weights (R36). -/
  pW : Table (List Int)
  deriving DecidableEq, Repr

/-- `CONFIGURED(cfg, tabs)` of R20: KIND is the constructor, and only the fields and the tables the kind uses
are present (R38). -/
inductive Run where
  | static
  | gshare (g : Width) (tabs : GshareTables)
  | tournament (g l p : Width) (tabs : TournamentTables)
  /-- `theta` is THETA, an unsigned integer (R26). -/
  | perceptron (g : Width) (theta : Nat) (tabs : PerceptronTables)
  deriving DecidableEq, Repr

/-- The block's state (R20). FAULTED holds nothing more (R39; log entry 15). -/
inductive Block where
  | unconfigured
  | configured (run : Run)
  | faulted
  deriving DecidableEq, Repr

/-- What the outside world does to the block: it sends a command word (R70, R221) or asserts the reset input
between commands (R290). -/
inductive HostInput where
  | command (c : Word)
  | reset
  deriving DecidableEq, Repr

/-- The machine: the block's own state (R20) and the two ends of its port. `inputs` and `responses` are the
model's own fields (log entries 1 and 2): the block itself keeps neither (R29, R41). -/
structure State where
  /-- MODE, KIND, the configuration registers and the tables (R20–R36). -/
  block : Block
  /-- What the host has sent and the block has not yet taken, in arrival order (R57). -/
  inputs : List HostInput
  /-- The response words the block has delivered, the newest first (R78). -/
  responses : List Byte
  deriving DecidableEq, Repr

/-- The reasons a step can fault: NONE. Every word on the port gets a response and the block goes on (R78,
R267; log entry 8), so this closed type has no constructor. -/
inductive Fault where
  deriving DecidableEq, Repr

/-- The reasons a step can be refused. -/
inductive Refusal where
  /-- Raised by an arm of `exec` whose instruction has no meaning yet, by its mnemonic: safe. No arm raises it. -/
  | notModelled (mnemonic : String)
  deriving DecidableEq, Repr

/-- The machine right after reset (R290, R291): MODE = UNCONFIGURED, everything else not present; nothing sent,
nothing answered. -/
def State.reset : State := { block := .unconfigured, inputs := [], responses := [] }

end Sys2Proof.Machine
end

