-- ==== Sys2Proof/Machine/Operands.lean ====
section
/-! DEFINITION. The operand forms: the mask (00_scope.md R10), the `kind` field (30_encoding.md R81), the width
fields (R82) and the fold of a pc to a table's index width (41_gshare.md R131, 42_tournament.md R151). -/

namespace Sys2Proof.Machine

/-- `mask(b) = (1 << b) - 1` (R10). -/
def mask (b : Nat) : Nat := (1 <<< b) - 1

/-- The low `k` bits of a pc, the material of every index (R28, R53, R131, R151, R182). -/
def pcLow (pc : Pc) (k : Nat) : Nat := pc.toNat &&& mask k

/-- The kind a `kind` field names; `4 .. 15` are unrecognized (R81). -/
def kindOfField (k : BitVec 4) : Option Kind :=
  if k = 0#4 then some .static
  else if k = 1#4 then some .gshare
  else if k = 2#4 then some .tournament
  else if k = 3#4 then some .perceptron
  else none

/-- A width field is legal from 1 up to its maximum (R82). -/
def widthLegal (max : Nat) (f : BitVec 8) : Bool := decide (1 ≤ f.toNat ∧ f.toNat ≤ max)

/-- The 6-bit register a legal width field is loaded into (R23, R24, R25). -/
def widthOfField (f : BitVec 8) : Width := f.setWidth 6

end Sys2Proof.Machine
end

