-- ==== Sys2Proof/Machine/Flags.lean ====
section
/-! DEFINITION. The block has no flags (10_state.md R29). What stands here is its only per-command status: the
status codes (60_exceptions.md R260), the response word (30_encoding.md R78), and the numeric codes of MODE and
KIND (10_state.md R21, R22). -/

namespace Sys2Proof.Machine

/-- The status names of R260. -/
inductive Status where
  | ok
  | cfgErr
  | notConfigured
  | illegalCmd
  | weightRange
  | faulted
  deriving DecidableEq, Repr

/-- The status codes (R260). -/
def statusCode : Status → BitVec 4
  | .ok => 0
  | .cfgErr => 1
  | .notConfigured => 2
  | .illegalCmd => 3
  | .weightRange => 4
  | .faulted => 5

/-- The response word: status in `[7:4]`, 0 in `[3:1]`, the prediction in `[0]` (R78). -/
def responseWord (st : Status) (pred : Bit) : Byte := statusCode st ++ 0#3 ++ BitVec.ofBool pred

/-- The `status` field `r[7:4]` of a response (R78). -/
def statusField (r : Byte) : BitVec 4 := r.extractLsb' 4 4

/-- The `pred` bit `r[0]` of a response (R78). -/
def predField (r : Byte) : Bit := r.getLsbD 0

/-- MODE's encoding (R21). -/
def modeCode : Mode → BitVec 2
  | .unconfigured => 0
  | .configured => 1
  | .faulted => 2

/-- KIND's encoding (R22). -/
def kindCode : Kind → BitVec 2
  | .static => 0
  | .gshare => 1
  | .tournament => 2
  | .perceptron => 3

/-- MODE as the block's state shows it (R20, R21). -/
def modeOf : Block → Mode
  | .unconfigured => .unconfigured
  | .configured _ => .configured
  | .faulted => .faulted

/-- KIND of a configured block (R20, R22). -/
def kindOf : Run → Kind
  | .static => .static
  | .gshare _ _ => .gshare
  | .tournament _ _ _ _ => .tournament
  | .perceptron _ _ _ => .perceptron

end Sys2Proof.Machine
end

