-- ==== Sys2Proof/Machine/Ops.lean ====
section
/-! DEFINITION. The shared operations: table read and write (20_memory.md R51, R52), delivering a response
(30_encoding.md R78), raising a status (00_scope.md R12, 60_exceptions.md R260, R267), the reset input
(70_reset_and_hazards.md R290) and taking the next input from the port (20_memory.md R57, 44_facade.md R221). -/

namespace Sys2Proof.Machine

/-- `T[i]` (R51), for a table whose entries start at `init`. -/
def Table.read {α : Type} (init : α) : Table α → Nat → α
  | [], _ => init
  | (j, v) :: t, i => if i = j then v else Table.read init t i

/-- `T[i] <- v` (R52), keeping the table's canonical form: an entry set back to `init` is not listed. -/
def Table.write {α : Type} [DecidableEq α] (init : α) : Table α → Nat → α → Table α
  | [], i, v => if v = init then [] else [(i, v)]
  | (j, w) :: t, i, v =>
    if i < j then (if v = init then (j, w) :: t else (i, v) :: (j, w) :: t)
    else if i = j then (if v = init then t else (i, v) :: t)
    else (j, w) :: Table.write init t i v

/-- Put a response word on the port (R78). -/
def deliver (r : Byte) (s : State) : State := { s with responses := r :: s.responses }

/-- `respond(pred, status)` (R12, R78). -/
def respond (pred : Bit) (st : Status) (s : State) : State := deliver (responseWord st pred) s

/-- The state effect a raised status has (the last column of R260): CFG_ERR leaves the block UNCONFIGURED,
WEIGHT_RANGE leaves it FAULTED, no other changes it. -/
def statusEffect (st : Status) (b : Block) : Block :=
  match st with
  | .ok => b
  | .cfgErr => .unconfigured
  | .notConfigured => b
  | .illegalCmd => b
  | .weightRange => .faulted
  | .faulted => b

/-- `raise <Status>` (R12): the command ends with that status and `pred` = 0, and the one state change the
status names is the only one made (R267). This is the block's whole error entry: it saves nothing and goes
nowhere (R269), and there is no return from it (R270). -/
def raise (st : Status) (s : State) : State :=
  respond false st { s with block := statusEffect st s.block }

/-- The reset input is asserted (R290): the block becomes UNCONFIGURED and its configuration and tables are gone.
A reset is no command, so it gets no response (log entry 4). -/
def resetBlock (s : State) : State := { s with block := .unconfigured }

/-- The block waits for a command and holds its state unchanged (R277, R290). -/
def idle (s : State) : State := s

/-- The next input in arrival order (R57, R221), and the machine once the block has taken it. -/
def takeInput (s : State) : Option (HostInput × State) :=
  match s.inputs with
  | [] => none
  | h :: rest => some (h, { s with inputs := rest })

/-- The host sends this input so that the block takes it next. -/
def sendNext (h : HostInput) (s : State) : State := { s with inputs := h :: s.inputs }

end Sys2Proof.Machine
end

