-- ==== Sys2Proof/Machine/Counter.lean ====
section
/-! DEFINITION. The two shared primitives: the saturating counter and the history register
(40_counter_history.md R100–R112), and the tables made of each. -/

namespace Sys2Proof.Machine

/-- SC_READ (R102): Taken iff the counter is at least `2^(n-1)`. -/
def scRead (n c : Nat) : Bit := decide (2 ^ (n - 1) ≤ c)

/-- SC_UPDATE (R103): one up, clamped at `2^n - 1`, or one down, clamped at 0 (natural-number subtraction is
`max(c - 1, 0)`). -/
def scUpdate (n c : Nat) (o : Bit) : Nat := if o then min (c + 1) (2 ^ n - 1) else c - 1

/-- Weakly-Not-Taken, `WN(n) = 2^(n-1) - 1` (R105). -/
def wn (n : Nat) : Nat := 2 ^ (n - 1) - 1

/-- HR_SHIFT (R108). -/
def hrShift (r : Nat) (o : Bit) (w : Nat) : Nat := ((r <<< 1) ||| o.toNat) &&& mask w

/-- An entry of a counter table, whose entries start at `WN(n)` (R31, R32, R34, R105). -/
def ctrRead (n : Nat) (t : Table Nat) (i : Nat) : Nat := Table.read (wn n) t i

/-- `T[i] <- SC_UPDATE(T[i], o)` on a counter table. -/
def ctrTrain (n : Nat) (t : Table Nat) (i : Nat) (o : Bit) : Table Nat :=
  Table.write (wn n) t i (scUpdate n (ctrRead n t i) o)

/-- An entry of a history table, whose entries start at 0 (R33, R110). -/
def histRead (t : Table Nat) (i : Nat) : Nat := Table.read 0 t i

/-- `T[i] <- HR_SHIFT(T[i], o, w)` on a history table (R112). -/
def histShift (t : Table Nat) (i : Nat) (o : Bit) (w : Nat) : Table Nat :=
  Table.write 0 t i (hrShift (histRead t i) o w)

end Sys2Proof.Machine
end

