-- ==== Sys2Proof/Machine/Perceptron.lean ====
section
/-! DEFINITION. The perceptron predictor (43_perceptron.md R180–R196). `g` is GBITS as a number; all arithmetic on
weights is exact, on `Int` (R9, R193). -/

namespace Sys2Proof.Machine

/-- The tables a CONFIGURE makes (R225). -/
def pInit : PerceptronTables := { pGhr := 0, pW := [] }

/-- P_BIAS, hardwired to +1 for every entry (R37). -/
def pBias : Int := 1

/-- The initial weight vector of an entry: `g` zeros (R36). -/
def zeroWeights (g : Nat) : List Int := List.replicate g 0

/-- `P_W[k]`. -/
def pEntry (g : Nat) (t : PerceptronTables) (k : Nat) : List Int := Table.read (zeroWeights g) t.pW k

/-- Weight `j` of a weight vector (log entry 7). -/
def weightAt (ws : List Int) (j : Nat) : Int := ws.getD j 0

/-- P_INDEX (R182). -/
def pIndex (P : Params) (g : Nat) (t : PerceptronTables) (pc : Pc) : Nat :=
  match P.percIndex with
  | .xor => (pc.toNat ^^^ t.pGhr) &&& mask g
  | .pc => pc.toNat &&& mask g

/-- The bipolar mapping of a bit, `sign(b)` of a history bit and `t(o)` of an outcome alike (R183). -/
def bipolar (b : Bit) : Int := if b then 1 else -1

/-- The loop of P_DOT (R184) over one weight vector and one history: `y` starts at the bias. -/
def dotWeights (g : Nat) (ws : List Int) (h : Nat) : Int :=
  (List.range g).foldl (fun y j => y + weightAt ws j * bipolar (h.testBit j)) pBias

/-- P_DOT (R184). -/
def pDot (P : Params) (g : Nat) (t : PerceptronTables) (pc : Pc) : Int :=
  dotWeights g (pEntry g t (pIndex P g t pc)) t.pGhr

/-- P_PRED (R185): `y = 0` predicts Taken. -/
def pPred (y : Int) : Bit := decide (0 ≤ y)

/-- P_NEED_UPDATE (R187). -/
def pNeedUpdate (theta : Nat) (y : Int) (o : Bit) : Bool := pPred y != o || decide (y.natAbs < theta)

/-- The weights R188 would write: every lane moved by `t(o) * sign(P_GHR[j])`, from the values before. -/
def newWeights (g : Nat) (ws : List Int) (h : Nat) (o : Bit) : List Int :=
  (List.range g).map (fun j => weightAt ws j + bipolar o * bipolar (h.testBit j))

/-- Whether a weight lies in the `W_BITS` range (R189); with `UNBOUNDED` every weight does. -/
def weightInRange (wBits : Option Nat) (w : Int) : Bool :=
  match wBits with
  | none => true
  | some b => decide (-(2 : Int) ^ (b - 1) ≤ w ∧ w ≤ (2 : Int) ^ (b - 1) - 1)

/-- The tables after a TRAIN (R192): `none` where R189 raises WEIGHT_RANGE. -/
def pTrainStep (P : Params) (g theta : Nat) (t : PerceptronTables) (pc : Pc) (o : Bit) :
    Option PerceptronTables :=
  let k := pIndex P g t pc
  let w' := newWeights g (pEntry g t k) t.pGhr o
  if pNeedUpdate theta (pDot P g t pc) o then
    if w'.all (weightInRange P.wBits) then
      some { pW := Table.write (zeroWeights g) t.pW k w', pGhr := hrShift t.pGhr o g }
    else none
  else some { t with pGhr := hrShift t.pGhr o g }

end Sys2Proof.Machine
end

