-- ==== Sys2Proof/Machine/Gshare.lean ====
section
/-! DEFINITION. The gshare predictor (41_gshare.md R130–R136): the GSHARE kind's, and the global sub-predictor of
TOURNAMENT. `g` is GBITS as a number. -/

namespace Sys2Proof.Machine

/-- The tables a CONFIGURE makes (R225). -/
def gsInit : GshareTables := { gsGhr := 0, gsPht := [] }

/-- GS_INDEX (R131). -/
def gsIndex (g : Nat) (t : GshareTables) (pc : Pc) : Nat := pcLow pc g ^^^ t.gsGhr

/-- GS_READING (R132). -/
def gsReading (P : Params) (g : Nat) (t : GshareTables) (pc : Pc) : Bit :=
  scRead P.ctrBits (ctrRead P.ctrBits t.gsPht (gsIndex g t pc))

/-- GS_TRAIN_STEP (R133): the counter at the index formed before the shift, then the shift. -/
def gsTrainStep (P : Params) (g : Nat) (t : GshareTables) (pc : Pc) (o : Bit) : GshareTables :=
  { gsPht := ctrTrain P.ctrBits t.gsPht (gsIndex g t pc) o
    gsGhr := hrShift t.gsGhr o g }

end Sys2Proof.Machine
end

