-- ==== Sys2Proof/Machine/Tournament.lean ====
section
/-! DEFINITION. The tournament predictor (42_tournament.md R150–R163). `g`, `l` and `p` are GBITS, LBITS and PBITS
as numbers. -/

namespace Sys2Proof.Machine

/-- The tables a CONFIGURE makes (R225). -/
def tInit : TournamentTables :=
  { tMeta := [], localPred := { tLht := [], tLpt := [] }, globalPred := gsInit }

/-- T_PCIDX (R151). -/
def tPcIdx (p : Nat) (pc : Pc) : Nat := pcLow pc p

/-- T_LIDX (R152): the address's own history. -/
def tLIdx (p : Nat) (t : LocalTables) (pc : Pc) : Nat := histRead t.tLht (tPcIdx p pc)

/-- LOCAL_READING (R153). -/
def localReading (P : Params) (p : Nat) (t : LocalTables) (pc : Pc) : Bit :=
  scRead P.ctrBits (ctrRead P.ctrBits t.tLpt (tLIdx p t pc))

/-- META_READING (R154): Not-Taken selects the local predictor, Taken the global one. -/
def metaReading (P : Params) (p : Nat) (t : TournamentTables) (pc : Pc) : Bit :=
  scRead P.ctrBits (ctrRead P.ctrBits t.tMeta (tPcIdx p pc))

/-- The prediction of R155. -/
def tPredict (P : Params) (g p : Nat) (t : TournamentTables) (pc : Pc) : Bit :=
  if metaReading P p t pc = false then localReading P p t.localPred pc
  else gsReading P g t.globalPred pc

/-- The meta update of R156: only when the readings differ, one step toward the sub-predictor that matched `o`. -/
def metaTrain (P : Params) (p : Nat) (tMeta : Table Nat) (pc : Pc) (loc glob o : Bit) : Table Nat :=
  if loc ≠ glob then
    if loc = o then ctrTrain P.ctrBits tMeta (tPcIdx p pc) false
    else ctrTrain P.ctrBits tMeta (tPcIdx p pc) true
  else tMeta

/-- The local updates of R157 and R158: the counter at the old local history, and the history's shift. -/
def localTrainStep (P : Params) (l p : Nat) (t : LocalTables) (pc : Pc) (o : Bit) : LocalTables :=
  { tLpt := ctrTrain P.ctrBits t.tLpt (tLIdx p t pc) o
    tLht := histShift t.tLht (tPcIdx p pc) o l }

/-- TRAIN's table updates (R160), every read from the tables before the command. -/
def tTrainStep (P : Params) (g l p : Nat) (t : TournamentTables) (pc : Pc) (o : Bit) : TournamentTables :=
  { tMeta := metaTrain P p t.tMeta pc (localReading P p t.localPred pc) (gsReading P g t.globalPred pc) o
    localPred := localTrainStep P l p t.localPred pc o
    globalPred := gsTrainStep P g t.globalPred pc o }

end Sys2Proof.Machine
end

