-- ==== Sys2Proof/Machine/Facade.lean ====
section
/-! DEFINITION. The facade (44_facade.md R220–R233): configuration, dispatch on MODE and KIND, the STATIC kind, and
the meanings of the four commands. Each command is written for any parameters `P`; its meaning is the command at
the block's own parameters. -/

namespace Sys2Proof.Machine

/-- CFG_VALID (R224). -/
def cfgValid (P : Params) (kind : BitVec 4) (g l p : BitVec 8) : Bool :=
  match kindOfField kind with
  | none => false
  | some .static => true
  | some .gshare => widthLegal P.gMax g
  | some .tournament => widthLegal P.gMax g && widthLegal P.lMax l && widthLegal P.pMax p
  | some .perceptron => widthLegal P.gMax g

/-- The configuration and the initial tables of each kind (R225); THETA is loaded here (R186). -/
def initRun (P : Params) (kind : Kind) (g l p : Width) : Run :=
  match kind with
  | .static => .static
  | .gshare => .gshare g gsInit
  | .tournament => .tournament g l p tInit
  | .perceptron => .perceptron g (P.theta g.toNat) pInit

/-- `CONFIGURED(cfg, INIT(kind, g, l, p))`, or UNCONFIGURED where the kind is unrecognized (R223, R226). -/
def configuredBlock (P : Params) (kind : BitVec 4) (g l p : BitVec 8) : Block :=
  match kindOfField kind with
  | none => .unconfigured
  | some k => .configured (initRun P k (widthOfField g) (widthOfField l) (widthOfField p))

/-- The prediction of a configured block (R227): STATIC R229, GSHARE R134, TOURNAMENT R155, PERCEPTRON R191. -/
def runPredict (P : Params) (r : Run) (pc : Pc) : Bit :=
  match r with
  | .static => true
  | .gshare g t => gsReading P g.toNat t pc
  | .tournament g _ p t => tPredict P g.toNat p.toNat t pc
  | .perceptron g _ t => pPred (pDot P g.toNat t pc)

/-- A configured block after TRAIN (R228): STATIC R230, GSHARE R135, TOURNAMENT R160, PERCEPTRON R192; `none` where
the TRAIN raises WEIGHT_RANGE. -/
def runTrain (P : Params) (r : Run) (pc : Pc) (o : Bit) : Option Run :=
  match r with
  | .static => some .static
  | .gshare g t => some (.gshare g (gsTrainStep P g.toNat t pc o))
  | .tournament g l p t => some (.tournament g l p (tTrainStep P g.toNat l.toNat p.toNat t pc o))
  | .perceptron g theta t => (pTrainStep P g.toNat theta t pc o).map (.perceptron g theta)

/-- NOP (R222): OK in every mode, nothing written. -/
def nopCmd (s : State) : State := respond false .ok s

/-- CONFIGURE (R223), in every mode. -/
def configureCmd (P : Params) (kind : BitVec 4) (g l p : BitVec 8) (s : State) : State :=
  if cfgValid P kind g l p then respond false .ok { s with block := configuredBlock P kind g l p }
  else raise .cfgErr s

/-- PREDICT (R227): dispatch on MODE, then on KIND. -/
def predictCmd (P : Params) (pc : Pc) (s : State) : State :=
  match s.block with
  | .faulted => raise .faulted s
  | .unconfigured => raise .notConfigured s
  | .configured r => respond (runPredict P r pc) .ok s

/-- TRAIN (R228): dispatch on MODE, then on KIND. -/
def trainCmd (P : Params) (pc : Pc) (o : Bit) (s : State) : State :=
  match s.block with
  | .faulted => raise .faulted s
  | .unconfigured => raise .notConfigured s
  | .configured r =>
    match runTrain P r pc o with
    | some r' => respond false .ok { s with block := .configured r' }
    | none => raise .weightRange s

/-- A word that does not decode is answered ILLEGAL_CMD (R221, R261). -/
def illegalCmd (s : State) : State := raise .illegalCmd s

/-- The meaning of NOP. -/
def execNop (s : State) : Host.Outcome State Fault Refusal := .next (nopCmd s)

/-- The meaning of CONFIGURE. -/
def execConfigure (kind : BitVec 4) (g l p : BitVec 8) (s : State) : Host.Outcome State Fault Refusal :=
  .next (configureCmd blockParams kind g l p s)

/-- The meaning of PREDICT. -/
def execPredict (pc : Pc) (s : State) : Host.Outcome State Fault Refusal :=
  .next (predictCmd blockParams pc s)

/-- The meaning of TRAIN. -/
def execTrain (pc : Pc) (o : Bit) (s : State) : Host.Outcome State Fault Refusal :=
  .next (trainCmd blockParams pc o s)

end Sys2Proof.Machine
end

