-- ==== Sys2Proof/Machine/Dispatch.lean ====
section
/-! DEFINITION. The dispatch of a decoded command to its meaning (44_facade.md R221), one arm per constructor. -/

namespace Sys2Proof.Machine

/-- The meaning of each command. -/
def exec (i : Instr) (s : State) : Host.Outcome State Fault Refusal :=
  match i with
  | .nop => Sys2Proof.Machine.execNop s
  | .configure kind g l p => Sys2Proof.Machine.execConfigure kind g l p s
  | .predict pc => Sys2Proof.Machine.execPredict pc s
  | .train pc o => Sys2Proof.Machine.execTrain pc o s

end Sys2Proof.Machine
end

