-- ==== Sys2Proof/Machine/Step.lean ====
section
/-! DEFINITION. One step of the machine: the command cycle of 44_facade.md R221, the reset input of
70_reset_and_hazards.md R290, and waiting when nothing has arrived. -/

namespace Sys2Proof.Machine

/-- Take the next input: a reset resets the block; a command is decoded and executed, or answered ILLEGAL_CMD;
with nothing sent the block waits. -/
def step (s : State) : Host.Outcome State Fault Refusal :=
  match takeInput s with
  | none => .next (idle s)
  | some (.reset, t) => .next (resetBlock t)
  | some (.command c, t) =>
    match decode c with
    | .instr i => exec i t
    | .illegal _ => .next (illegalCmd t)

/-- `s` with the word whose low `nbits` bits are `w` as the command the block takes next (log entry 1). -/
def State.withFetchWord (s : State) (nbits w : Nat) : State := sendNext (.command (tableWord nbits w)) s

end Sys2Proof.Machine
end

