-- ==== Sys2Proof/Machine/Assembler.lean ====
section
/-! DEFINITION. The assembly syntax of command streams (30_encoding.md R83) and the pseudo-instruction `branch`
(R84): lines with plain numbers as operands, the check that each operand fits its field, the words a line
stands for, and the reading of a line's text (log entry 11). -/

namespace Sys2Proof.Machine

/-- One line of a command stream (R83, R84). -/
inductive AsmLine where
  | nop
  | configureStatic
  | configureGshare (g : Nat)
  | configureTournament (g l p : Nat)
  | configurePerceptron (g : Nat)
  /-- `configure K, G, L, P`, a raw kind. -/
  | configureRaw (k g l p : Nat)
  | predict (pc : Nat)
  | train (pc : Nat) (o : Bit)
  /-- The pseudo-instruction `branch PC, t|n` (R84). -/
  | branch (pc : Nat) (o : Bit)
  /-- `.cmd W`, a raw word. -/
  | cmd (w : Nat)
  deriving DecidableEq, Repr

/-- Every operand fits its field (R83). -/
def asmFits : AsmLine → Bool
  | .nop => true
  | .configureStatic => true
  | .configureGshare g => decide (g < 2 ^ 8)
  | .configureTournament g l p => decide (g < 2 ^ 8) && decide (l < 2 ^ 8) && decide (p < 2 ^ 8)
  | .configurePerceptron g => decide (g < 2 ^ 8)
  | .configureRaw k g l p =>
    decide (k < 2 ^ 4) && decide (g < 2 ^ 8) && decide (l < 2 ^ 8) && decide (p < 2 ^ 8)
  | .predict pc => decide (pc < 2 ^ 32)
  | .train pc _ => decide (pc < 2 ^ 32)
  | .branch pc _ => decide (pc < 2 ^ 32)
  | .cmd w => decide (w < 2 ^ 64)

/-- The CONFIGURE word of numbers that fit their fields. -/
def asmConfigure (k g l p : Nat) : Word :=
  encode (.configure (BitVec.ofNat 4 k) (BitVec.ofNat 8 g) (BitVec.ofNat 8 l) (BitVec.ofNat 8 p))

/-- The command words of a line whose operands fit (R83, R84). -/
def asmWords : AsmLine → List Word
  | .nop => [encode .nop]
  | .configureStatic => [asmConfigure 0 0 0 0]
  | .configureGshare g => [asmConfigure 1 g 0 0]
  | .configureTournament g l p => [asmConfigure 2 g l p]
  | .configurePerceptron g => [asmConfigure 3 g 0 0]
  | .configureRaw k g l p => [asmConfigure k g l p]
  | .predict pc => [encode (.predict (BitVec.ofNat 32 pc))]
  | .train pc o => [encode (.train (BitVec.ofNat 32 pc) o)]
  | .branch pc o => [encode (.predict (BitVec.ofNat 32 pc)), encode (.train (BitVec.ofNat 32 pc) o)]
  | .cmd w => [BitVec.ofNat 64 w]

/-- The assembler: it rejects a line with a value that does not fit (R83). -/
def assemble (a : AsmLine) : Option (List Word) := if asmFits a then some (asmWords a) else none

/-- The syntax is case-insensitive (R83): letters are read in lower case. -/
def asmLower (c : Char) : Char :=
  if 65 ≤ c.toNat ∧ c.toNat ≤ 90 then Char.ofNat (c.toNat + 32) else c

/-- Blanks separate the tokens of a line. -/
def asmBlank (c : Char) : Bool := c == ' ' || c == '\t' || c == '\r'

/-- A token under way, if it has begun. -/
def asmFlush (cur : List Char) : List (List Char) := if cur.isEmpty then [] else [cur.reverse]

/-- The tokens of a line: words, and each comma by itself. -/
def asmTokens : List Char → List Char → List (List Char)
  | cur, [] => asmFlush cur
  | cur, c :: cs =>
    if asmBlank c then asmFlush cur ++ asmTokens [] cs
    else if c = ',' then asmFlush cur ++ [','] :: asmTokens [] cs
    else asmTokens (asmLower c :: cur) cs

/-- The value of a digit in a base. -/
def asmDigit (base : Nat) (c : Char) : Option Nat :=
  let v := if 48 ≤ c.toNat ∧ c.toNat ≤ 57 then c.toNat - 48
    else if 97 ≤ c.toNat ∧ c.toNat ≤ 102 then c.toNat - 87 else base
  if v < base then some v else none

/-- The value of a run of digits after `acc`. -/
def asmDigits (base : Nat) : Nat → List Char → Option Nat
  | acc, [] => some acc
  | acc, c :: cs =>
    match asmDigit base c with
    | none => none
    | some v => asmDigits base (acc * base + v) cs

/-- Decimal, `0x` hexadecimal or `0b` binary (R83). -/
def asmNumber : List Char → Option Nat
  | [] => none
  | '0' :: 'x' :: d :: ds => asmDigits 16 0 (d :: ds)
  | '0' :: 'b' :: d :: ds => asmDigits 2 0 (d :: ds)
  | d :: ds => asmDigits 10 0 (d :: ds)

/-- `t` is Taken, `n` is Not-Taken (R83). -/
def asmOutcome (tok : List Char) : Option Bit :=
  if tok = ['t'] then some true else if tok = ['n'] then some false else none

/-- The operands between the commas. -/
def asmOperands : List (List Char) → Option (List (List Char))
  | [] => some []
  | [a] => if a = [','] then none else some [a]
  | a :: b :: rest =>
    if a ≠ [','] ∧ b = [','] ∧ rest ≠ [] then (asmOperands rest).map (a :: ·) else none

/-- The kind a name stands for (R83). -/
def asmKindName (tok : List Char) : Option Nat :=
  if tok = ['s', 't', 'a', 't', 'i', 'c'] then some 0
  else if tok = ['g', 's', 'h', 'a', 'r', 'e'] then some 1
  else if tok = ['t', 'o', 'u', 'r', 'n', 'a', 'm', 'e', 'n', 't'] then some 2
  else if tok = ['p', 'e', 'r', 'c', 'e', 'p', 't', 'r', 'o', 'n'] then some 3
  else none

/-- A kind by name or by number, as the first operand of the four-operand form. -/
def asmKind (tok : List Char) : Option Nat :=
  match asmKindName tok with
  | some k => some k
  | none => asmNumber tok

/-- The forms of `configure` (R83). -/
def asmConfigureLine : List (List Char) → Option AsmLine
  | [k] => if asmKindName k = some 0 then some .configureStatic else none
  | [k, g] =>
    match asmKindName k, asmNumber g with
    | some 1, some g => some (.configureGshare g)
    | some 3, some g => some (.configurePerceptron g)
    | _, _ => none
  | [k, g, l, p] =>
    match asmKindName k, asmKind k, asmNumber g, asmNumber l, asmNumber p with
    | some 2, _, some g, some l, some p => some (.configureTournament g l p)
    | _, some k, some g, some l, some p => some (.configureRaw k g l p)
    | _, _, _, _, _ => none
  | _ => none

/-- A line of a pc and an outcome: `train` and `branch` (R83, R84). -/
def asmPcOutcome (mk : Nat → Bit → AsmLine) : List (List Char) → Option AsmLine
  | [pc, o] =>
    match asmNumber pc, asmOutcome o with
    | some pc, some o => some (mk pc o)
    | _, _ => none
  | _ => none

/-- A line of one number: `predict` and `.cmd` (R83). -/
def asmOneNumber (mk : Nat → AsmLine) : List (List Char) → Option AsmLine
  | [n] => (asmNumber n).map mk
  | _ => none

/-- A line's first token and its operands (R83). -/
def asmCommand (name : List Char) (ops : List (List Char)) : Option AsmLine :=
  if name = ['n', 'o', 'p'] then (if ops = [] then some .nop else none)
  else if name = ['c', 'o', 'n', 'f', 'i', 'g', 'u', 'r', 'e'] then asmConfigureLine ops
  else if name = ['p', 'r', 'e', 'd', 'i', 'c', 't'] then asmOneNumber .predict ops
  else if name = ['t', 'r', 'a', 'i', 'n'] then asmPcOutcome .train ops
  else if name = ['b', 'r', 'a', 'n', 'c', 'h'] then asmPcOutcome .branch ops
  else if name = ['.', 'c', 'm', 'd'] then asmOneNumber .cmd ops
  else none

/-- The words of one line of text: `;` starts a comment, and a line without a command has no word (R83);
`none` where the assembler rejects the line. -/
def assembleLine (text : List Char) : Option (List Word) :=
  match asmTokens [] (text.takeWhile (· != ';')) with
  | [] => some []
  | name :: rest =>
    match asmOperands rest with
    | none => none
    | some ops =>
      match asmCommand name ops with
      | none => none
      | some a => assemble a

/-- The words of a command stream, one command per line (R83). -/
def assembleProgram : List (List Char) → Option (List Word)
  | [] => some []
  | line :: lines =>
    match assembleLine line, assembleProgram lines with
    | some ws, some rest => some (ws ++ rest)
    | _, _ => none

end Sys2Proof.Machine
end

