-- ==== Sys2Proof/Machine/Storage.lean ====
section
/-! DEFINITION. How many bits of storage a configuration has (10_state.md R42), and the accumulator width a dot
product needs (43_perceptron.md R193). -/

namespace Sys2Proof.Machine

/-- Bits of storage of a configured block (R42); `none` where unbounded weights have no finite size. -/
def storageBits (P : Params) : Run → Option Nat
  | .static => some 0
  | .gshare g _ => some (g.toNat + P.ctrBits * 2 ^ g.toNat)
  | .tournament g l p _ =>
    some (g.toNat + P.ctrBits * 2 ^ g.toNat + P.ctrBits * 2 ^ p.toNat + l.toNat * 2 ^ p.toNat
      + P.ctrBits * 2 ^ l.toNat)
  | .perceptron g _ _ => P.wBits.map (fun w => g.toNat + w * g.toNat * 2 ^ g.toNat)

/-- `W_BITS + ceil(log2(g + 1)) + 1`, the least accumulator width R193 allows for a finite `W_BITS`. -/
def accumulatorBits (wBits g : Nat) : Nat := wBits + Nat.clog 2 (g + 1) + 1

end Sys2Proof.Machine
end

