-- ==== Sys2Proof/Safety.lean ====
section
/-! DEFINITION. What a good state is (the domains of 10_state.md R21–R36 as an invariant), what a legal response is
(30_encoding.md R78, 60_exceptions.md R260), and the protocol a host must keep (70_reset_and_hazards.md R294,
R295). -/

namespace Sys2Proof.Machine

/-- The canonical form of a table: rising indexes, and no listed entry equal to the initial value (log entry 3). -/
abbrev Table.Canonical {α : Type} (init : α) (t : Table α) : Prop :=
  t.Pairwise (fun a b => a.1 < b.1) ∧ ∀ c ∈ t, c.2 ≠ init

/-- Every listed index is one of the `2^k` the table has. -/
abbrev Table.InRange {α : Type} (k : Nat) (t : Table α) : Prop := ∀ c ∈ t, c.1 < 2 ^ k

/-- A table of `2^k` counters `UInt_n` (R31, R32, R34). -/
abbrev CounterTableOk (n k : Nat) (t : Table Nat) : Prop :=
  Table.Canonical (wn n) t ∧ Table.InRange k t ∧ ∀ c ∈ t, c.2 < 2 ^ n

/-- A table of `2^k` history registers `UInt_w` (R33). -/
abbrev HistTableOk (w k : Nat) (t : Table Nat) : Prop :=
  Table.Canonical 0 t ∧ Table.InRange k t ∧ ∀ c ∈ t, c.2 < 2 ^ w

/-- A weight vector: `g` weights in the `W_BITS` range (R36), all of one parity (R195). -/
abbrev WeightsOk (wBits : Option Nat) (g : Nat) (ws : List Int) : Prop :=
  ws.length = g ∧ (∀ w ∈ ws, weightInRange wBits w = true) ∧ ∀ a ∈ ws, ∀ b ∈ ws, a % 2 = b % 2

/-- The weight table (R36). -/
abbrev WeightTableOk (wBits : Option Nat) (g : Nat) (t : Table (List Int)) : Prop :=
  Table.Canonical (zeroWeights g) t ∧ Table.InRange g t ∧ ∀ c ∈ t, WeightsOk wBits g c.2

/-- A width register holds a legal value (R23, R24, R25). -/
abbrev WidthOk (max : Nat) (w : Width) : Prop := 1 ≤ w.toNat ∧ w.toNat ≤ max

/-- GS_GHR and GS_PHT in their domains (R30, R31). -/
abbrev GshareOk (P : Params) (g : Nat) (t : GshareTables) : Prop :=
  t.gsGhr < 2 ^ g ∧ CounterTableOk P.ctrBits g t.gsPht

/-- T_LHT and T_LPT in their domains (R33, R34). -/
abbrev LocalOk (P : Params) (l p : Nat) (t : LocalTables) : Prop :=
  HistTableOk l p t.tLht ∧ CounterTableOk P.ctrBits l t.tLpt

/-- T_META and both sub-predictors in their domains (R30–R34). -/
abbrev TournamentOk (P : Params) (g l p : Nat) (t : TournamentTables) : Prop :=
  CounterTableOk P.ctrBits p t.tMeta ∧ LocalOk P l p t.localPred ∧ GshareOk P g t.globalPred

/-- P_GHR and P_W in their domains (R35, R36). -/
abbrev PerceptronOk (P : Params) (g : Nat) (t : PerceptronTables) : Prop :=
  t.pGhr < 2 ^ g ∧ WeightTableOk P.wBits g t.pW

/-- A configured block: legal widths, THETA as CONFIGURE loaded it (R26), tables in their domains. -/
def RunOk (P : Params) : Run → Prop
  | .static => True
  | .gshare g t => WidthOk P.gMax g ∧ GshareOk P g.toNat t
  | .tournament g l p t =>
    WidthOk P.gMax g ∧ WidthOk P.lMax l ∧ WidthOk P.pMax p ∧ TournamentOk P g.toNat l.toNat p.toNat t
  | .perceptron g theta t => WidthOk P.gMax g ∧ theta = P.theta g.toNat ∧ PerceptronOk P g.toNat t

/-- The block: FAULTED exists only when `W_BITS` is bounded (R21). -/
def BlockOk (P : Params) : Block → Prop
  | .unconfigured => True
  | .configured r => RunOk P r
  | .faulted => P.wBits ≠ none

/-- A response the block may produce: a status of 0 .. 5, `[3:1]` zero (R78, R260), and `pred` only with OK. -/
abbrev ResponseOk (r : Byte) : Prop :=
  (statusField r).toNat ≤ 5 ∧ r.extractLsb' 1 3 = 0#3 ∧ (predField r = true → statusField r = 0#4)

/-- The invariant of the machine: the block's state in its domains, every delivered response legal. -/
def State.Inv (s : State) : Prop := BlockOk blockParams s.block ∧ ∀ r ∈ s.responses, ResponseOk r

/-- The protocol of R294 and R295 on what the host sends, given the pc of a PREDICT whose TRAIN is still to come:
each PREDICT is followed by exactly one TRAIN of the same pc with no other branch, configuration or reset
between them (log entry 12). The block does not check it (R296). -/
def followsProtocol : Option Pc → List HostInput → Bool
  | inFlight, [] => inFlight.isNone
  | inFlight, .reset :: rest => inFlight.isNone && followsProtocol none rest
  | inFlight, .command c :: rest =>
    match decode c with
    | .illegal _ => followsProtocol inFlight rest
    | .instr .nop => followsProtocol inFlight rest
    | .instr (.configure _ _ _ _) => inFlight.isNone && followsProtocol none rest
    | .instr (.predict pc) => inFlight.isNone && followsProtocol (some pc) rest
    | .instr (.train pc _) => inFlight == some pc && followsProtocol none rest

/-- The inputs that may write the block's state (R40): reset, CONFIGURE and TRAIN. NOP, PREDICT and illegal words
write nothing. -/
def mayWrite : HostInput → Bool
  | .reset => true
  | .command c =>
    match decode c with
    | .illegal _ => false
    | .instr .nop => false
    | .instr (.configure _ _ _ _) => true
    | .instr (.predict _) => false
    | .instr (.train _ _) => true

/-- The inputs that get a response: the commands (R78). -/
def isCommand : HostInput → Bool
  | .reset => false
  | .command _ => true

end Sys2Proof.Machine
end

