-- ==== Sys2Proof/Certificates/Slice0/Obligations.lean ====
section
/-! DEFINITION. The statements about the machine, each from the rules of spec/ its docstring names. A statement about
`exec` is about the block at its own parameters; one about every `P` holds for every value of the OPEN ones. -/

open Sys2Proof Sys2Proof.Machine

/-! ### Encoding -/

/-- R86, R87: decoding the word of any command gives the command back. -/
def Obligations.DecodeOfEncodeIsTheCommand : Prop :=
  ∀ i : Instr, decode (encode i) = .instr i

/-- R86, R87: a word that decodes is the word of the command it decodes to, so each command has exactly one word. -/
def Obligations.EncodeOfDecodeIsTheWord : Prop :=
  ∀ (c : Word) (i : Instr), decode c = .instr i → encode i = c

/-- R86: a word is a command exactly when it has the match of the command's row under the row's mask. -/
def Obligations.DecodeFollowsMatchAndMask : Prop :=
  ∀ c : Word,
    (decode c = .instr .nop ↔ c &&& 0xFFFFFFFFFFFFFFFF#64 = 0x0000000000000000#64) ∧
    ((∃ kind g l p, decode c = .instr (.configure kind g l p)) ↔
      c &&& 0xFFFFFFFF0000000F#64 = 0x0000000000000001#64) ∧
    ((∃ pc, decode c = .instr (.predict pc)) ↔ c &&& 0x00000000FFFFFFFF#64 = 0x0000000000000002#64) ∧
    ((∃ pc o, decode c = .instr (.train pc o)) ↔ c &&& 0x00000000FFFFFFEF#64 = 0x0000000000000003#64)

/-- R73, R74, R75, R80: where a word decodes, each operand is its field of the word as an unsigned number, neither
shifted nor scaled. -/
def Obligations.OperandsAreUnsignedFields : Prop :=
  ∀ c : Word,
    (∀ kind g l p, decode c = .instr (.configure kind g l p) →
      kind.toNat = c.toNat / 2 ^ 4 % 2 ^ 4 ∧ g.toNat = c.toNat / 2 ^ 8 % 2 ^ 8 ∧
      l.toNat = c.toNat / 2 ^ 16 % 2 ^ 8 ∧ p.toNat = c.toNat / 2 ^ 24 % 2 ^ 8) ∧
    (∀ pc, decode c = .instr (.predict pc) → pc.toNat = c.toNat / 2 ^ 32) ∧
    (∀ pc o, decode c = .instr (.train pc o) →
      pc.toNat = c.toNat / 2 ^ 32 ∧ o.toNat = c.toNat / 2 ^ 4 % 2)

/-- R76, R77, R261: the illegal words are exactly those with a reserved opcode or a nonzero reserved bit; the answer
to one is ILLEGAL_CMD, in every state, and nothing of the block changes. -/
def Obligations.IllegalWordsAnswerIllegalCmd : Prop :=
  (∀ c : Word, (∃ cause, decode c = .illegal cause) ↔
    (4 ≤ c.toNat % 2 ^ 4 ∨ (c.toNat % 2 ^ 4 = 0 ∧ c.toNat / 2 ^ 4 ≠ 0) ∨
      (c.toNat % 2 ^ 4 = 1 ∧ c.toNat / 2 ^ 32 ≠ 0) ∨
      (c.toNat % 2 ^ 4 = 2 ∧ c.toNat / 2 ^ 4 % 2 ^ 28 ≠ 0) ∨
      (c.toNat % 2 ^ 4 = 3 ∧ c.toNat / 2 ^ 5 % 2 ^ 27 ≠ 0))) ∧
  ∀ s : State, illegalCmd s = { s with responses := 0x30#8 :: s.responses }

/-- R87's examples and words of 95_test_vectors.md section 2.3, written out: each decodes as the spec says. -/
def Obligations.WordsOfTheSpecDecode : Prop :=
  decode 0x0000000000000000#64 = .instr .nop ∧
  decode 0x0000000000000211#64 = .instr (.configure 1 2 0 0) ∧
  decode 0x0000000100000002#64 = .instr (.predict 0x1) ∧
  decode 0x0000000100000013#64 = .instr (.train 0x1 true) ∧
  decode 0x8000000000000003#64 = .instr (.train 0x80000000 false) ∧
  decode 0x0000004000000023#64 = .illegal .reservedBits ∧
  decode 0xFFFFFFFFFFFFFFFF#64 = .illegal .reservedOpcode

/-- R54: byte `k` of a command's transfer is bits `[8k+7 : 8k]` of the word, and the eight bytes put together in that
order are the word. -/
def Obligations.TransferIsLittleEndian : Prop :=
  ∀ c : Word,
    (∀ k < 8, ((bytesOfWord c)[k]?).map BitVec.toNat = some (c.toNat / 2 ^ (8 * k) % 2 ^ 8)) ∧
    (bytesOfWord c).length = 8 ∧ wordOfBytes (bytesOfWord c) = some c

/-- R78: the fields of a response word, and R260's codes of the status names. -/
def Obligations.ResponseWordFields : Prop :=
  (∀ (st : Status) (pred : Bit),
    statusField (responseWord st pred) = statusCode st ∧ (responseWord st pred).extractLsb' 1 3 = 0#3 ∧
    predField (responseWord st pred) = pred) ∧
  [Status.ok, .cfgErr, .notConfigured, .illegalCmd, .weightRange, .faulted].map statusCode
    = [0#4, 1#4, 2#4, 3#4, 4#4, 5#4]

/-- R83, R84: for a line whose operands fit, the assembler gives the words that decode to the line's command, `branch`
giving PREDICT then TRAIN, and for `.cmd` the raw word itself; it rejects a pc that does not fit in 32 bits, a kind
that does not fit in 4, a width that does not fit in 8 and a raw word that does not fit in 64. -/
def Obligations.AssembledLinesDecodeToTheirCommands : Prop :=
  (∀ (pc : Nat) (o : Bit), pc < 2 ^ 32 →
    (assemble (.predict pc)).map (List.map decode) = some [.instr (.predict (BitVec.ofNat 32 pc))] ∧
    (assemble (.train pc o)).map (List.map decode) = some [.instr (.train (BitVec.ofNat 32 pc) o)] ∧
    (assemble (.branch pc o)).map (List.map decode) =
      some [.instr (.predict (BitVec.ofNat 32 pc)), .instr (.train (BitVec.ofNat 32 pc) o)]) ∧
  (∀ (pc : Nat) (o : Bit), 2 ^ 32 ≤ pc →
    assemble (.predict pc) = none ∧ assemble (.train pc o) = none ∧ assemble (.branch pc o) = none) ∧
  (∀ k g l p : Nat, k < 2 ^ 4 → g < 2 ^ 8 → l < 2 ^ 8 → p < 2 ^ 8 →
    (assemble (.configureRaw k g l p)).map (List.map decode) =
      some [.instr (.configure (BitVec.ofNat 4 k) (BitVec.ofNat 8 g) (BitVec.ofNat 8 l) (BitVec.ofNat 8 p))] ∧
    assemble (.configureGshare g) = assemble (.configureRaw 1 g 0 0) ∧
    assemble (.configureTournament g l p) = assemble (.configureRaw 2 g l p) ∧
    assemble (.configurePerceptron g) = assemble (.configureRaw 3 g 0 0) ∧
    assemble .configureStatic = assemble (.configureRaw 0 0 0 0)) ∧
  (∀ k g l p : Nat, (2 ^ 8 ≤ g → assemble (.configureGshare g) = none ∧ assemble (.configurePerceptron g) = none) ∧
    (2 ^ 8 ≤ g ∨ 2 ^ 8 ≤ l ∨ 2 ^ 8 ≤ p → assemble (.configureTournament g l p) = none) ∧
    (2 ^ 4 ≤ k ∨ 2 ^ 8 ≤ g ∨ 2 ^ 8 ≤ l ∨ 2 ^ 8 ≤ p → assemble (.configureRaw k g l p) = none)) ∧
  (assemble .nop).map (List.map decode) = some [.instr .nop] ∧
  ∀ w : Nat, (w < 2 ^ 64 → ∃ c : Word, c.toNat = w ∧ assemble (.cmd w) = some [c]) ∧
    (2 ^ 64 ≤ w → assemble (.cmd w) = none)

/-! ### Saturating counter, history register, tables -/

/-- R102: a counter reads Taken exactly when it is at least `2^(n-1)`, which for a counter in its domain is its high
bit. -/
def Obligations.CounterReadsItsHighBit : Prop :=
  ∀ n c : Nat, 1 ≤ n → (scRead n c = decide (2 ^ (n - 1) ≤ c)) ∧ (c < 2 ^ n → scRead n c = c.testBit (n - 1))

/-- R103: one up clamped at `2^n - 1`, one down clamped at 0, no wrap-around, as integers. -/
def Obligations.CounterUpdateSaturates : Prop :=
  ∀ (n c : Nat) (o : Bit), c < 2 ^ n →
    (scUpdate n c o : Int) = if o then min ((c : Int) + 1) (2 ^ n - 1) else max ((c : Int) - 1) 0

/-- R106: no sequence of updates takes a counter out of `[0, 2^n - 1]`. -/
def Obligations.CounterNeverLeavesItsRange : Prop :=
  ∀ (n c : Nat) (os : List Bit), c < 2 ^ n → os.foldl (scUpdate n) c < 2 ^ n

/-- R107: the complete transition table for `n` = 2. -/
def Obligations.CounterTransitionTable : Prop :=
  [0, 1, 2, 3].map (fun c => (scRead 2 c, scUpdate 2 c false, scUpdate 2 c true))
    = [(false, 0, 1), (false, 0, 2), (true, 1, 3), (true, 2, 3)]

/-- R109: whatever is shifted in, a history register of width `w` that starts at 0 never has a bit set above bit
`w - 1`. -/
def Obligations.HistoryKeepsItsWidth : Prop :=
  ∀ (w : Nat) (os : List Bit), os.foldl (fun r o => hrShift r o w) 0 < 2 ^ w

/-- R111: after outcomes have been shifted in, oldest first, bit `i` is the `i`-th most recent outcome, and 0 where
there is none. -/
def Obligations.HistoryBitIsIthMostRecentOutcome : Prop :=
  ∀ (w : Nat) (os : List Bit) (i : Nat),
    (os.foldl (fun r o => hrShift r o w) 0).testBit i = (decide (i < w) && os.reverse.getD i false)

/-- R108: HR_SHIFT is the masked shift: the outcome enters at bit 0, every bit moves up one place, the oldest bit is
discarded, and at width 1 the result is the outcome. -/
def Obligations.HistoryShiftDropsTheOldestBit : Prop :=
  ∀ (r w : Nat) (o : Bit), 1 ≤ w →
    hrShift r o w = ((r <<< 1) ||| o.toNat) % 2 ^ w ∧ (hrShift r o w).testBit 0 = o ∧
    (∀ i, (hrShift r o w).testBit (i + 1) = (decide (i + 1 < w) && r.testBit i)) ∧
    (w = 1 → hrShift r o w = o.toNat)

/-- R51, R52: in a table in canonical form a write replaces the entry it names and leaves every other one as it was,
and the form is kept. The canonical form is the model's (log entry 3). -/
def Obligations.TableWriteReplacesOneEntry : Prop :=
  ∀ (α : Type) [DecidableEq α] (init : α) (t : Table α) (i j : Nat) (v : α), Table.Canonical init t →
    Table.read init (Table.write init t i v) j = (if j = i then v else Table.read init t j) ∧
    Table.Canonical init (Table.write init t i v)

/-! ### NOP and CONFIGURE -/

/-- R222: NOP answers OK in every mode and writes nothing. -/
def Obligations.NopAnswersOkInEveryMode : Prop :=
  ∀ s : State, exec .nop s = .next { s with responses := 0x00#8 :: s.responses }

/-- R224: the validity of a configuration. -/
def Obligations.ConfigurationValidity : Prop :=
  ∀ (P : Params) (kind : BitVec 4) (g l p : BitVec 8),
    cfgValid P kind g l p = true ↔
      (kind.toNat ∈ [0, 1, 2, 3] ∧
        (kind.toNat ∈ [1, 2, 3] → 1 ≤ g.toNat ∧ g.toNat ≤ P.gMax) ∧
        (kind.toNat = 2 → (1 ≤ l.toNat ∧ l.toNat ≤ P.lMax) ∧ (1 ≤ p.toNat ∧ p.toNat ≤ P.pMax)))

/-- R223, R225: a valid CONFIGURE, in every state, leaves the block CONFIGURED with the fields the kind uses and every
structure at its initial value, and answers OK. -/
def Obligations.ConfigureBuildsFreshState : Prop :=
  (pBias = 1) ∧
  ∀ (s : State) (g l p : BitVec 8),
    exec (.configure 0 g l p) s
      = .next { s with block := .configured .static, responses := 0x00#8 :: s.responses } ∧
    (1 ≤ g.toNat ∧ g.toNat ≤ blockParams.gMax →
      (∃ (w : Width) (t : GshareTables), w.toNat = g.toNat ∧
        exec (.configure 1 g l p) s
          = .next { s with block := .configured (.gshare w t), responses := 0x00#8 :: s.responses } ∧
        t.gsGhr = 0 ∧ ∀ i, ctrRead 2 t.gsPht i = 1) ∧
      (∃ (w : Width) (t : PerceptronTables), w.toNat = g.toNat ∧
        exec (.configure 3 g l p) s
          = .next { s with block := .configured (.perceptron w ((193 * g.toNat + 1400) / 100) t),
                           responses := 0x00#8 :: s.responses } ∧
        t.pGhr = 0 ∧ ∀ i, pEntry w.toNat t i = List.replicate g.toNat 0)) ∧
    ((1 ≤ g.toNat ∧ g.toNat ≤ blockParams.gMax) ∧ (1 ≤ l.toNat ∧ l.toNat ≤ blockParams.lMax) ∧
        (1 ≤ p.toNat ∧ p.toNat ≤ blockParams.pMax) →
      ∃ (wg wl wp : Width) (t : TournamentTables),
        wg.toNat = g.toNat ∧ wl.toNat = l.toNat ∧ wp.toNat = p.toNat ∧
        exec (.configure 2 g l p) s
          = .next { s with block := .configured (.tournament wg wl wp t),
                           responses := 0x00#8 :: s.responses } ∧
        (∀ i, ctrRead 2 t.tMeta i = 1) ∧ (∀ i, histRead t.localPred.tLht i = 0) ∧
        (∀ i, ctrRead 2 t.localPred.tLpt i = 1) ∧ t.globalPred.gsGhr = 0 ∧
        ∀ i, ctrRead 2 t.globalPred.gsPht i = 1)

/-- R262: a CONFIGURE with an unrecognized kind, or with a width its kind uses that is 0 or above its maximum, answers
CFG_ERR in every state and leaves the block UNCONFIGURED. -/
def Obligations.ConfigureRejectsInvalid : Prop :=
  ∀ (s : State) (kind : BitVec 4) (g l p : BitVec 8),
    (4 ≤ kind.toNat ∨
      (1 ≤ kind.toNat ∧ kind.toNat ≤ 3 ∧ (g.toNat = 0 ∨ blockParams.gMax < g.toNat)) ∨
      (kind.toNat = 2 ∧ (l.toNat = 0 ∨ blockParams.lMax < l.toNat ∨ p.toNat = 0 ∨ blockParams.pMax < p.toNat))) →
    exec (.configure kind g l p) s
      = .next { s with block := .unconfigured, responses := 0x10#8 :: s.responses }

/-- R293: a CONFIGURE sent in any state, a run or FAULTED among them, leaves the block as the same CONFIGURE sent right
after reset, and gets the same response. -/
def Obligations.ConfigureForgetsTheFormerState : Prop :=
  ∀ (s : State) (kind : BitVec 4) (g l p : BitVec 8),
    ∃ (b : Block) (r : Byte),
      exec (.configure kind g l p) s = .next { s with block := b, responses := r :: s.responses } ∧
      exec (.configure kind g l p) State.reset
        = .next { State.reset with block := b, responses := r :: State.reset.responses }

/-! ### PREDICT and TRAIN outside a run, and the STATIC kind -/

/-- R263: PREDICT and TRAIN in UNCONFIGURED answer NOT_CONFIGURED and write nothing. -/
def Obligations.UnconfiguredAnswersNotConfigured : Prop :=
  ∀ (s : State) (pc : Pc) (o : Bit), s.block = .unconfigured →
    exec (.predict pc) s = .next { s with responses := 0x20#8 :: s.responses } ∧
    exec (.train pc o) s = .next { s with responses := 0x20#8 :: s.responses }

/-- R265: PREDICT and TRAIN in FAULTED answer FAULTED and write nothing, NOP answers OK there, a command after which
the block is no longer FAULTED is a CONFIGURE, an illegal word leaves it FAULTED, and the reset input ends it. -/
def Obligations.FaultedIsSticky : Prop :=
  (∀ (s : State) (pc : Pc) (o : Bit), s.block = .faulted →
    exec (.predict pc) s = .next { s with responses := 0x50#8 :: s.responses } ∧
    exec (.train pc o) s = .next { s with responses := 0x50#8 :: s.responses } ∧
    exec .nop s = .next { s with responses := 0x00#8 :: s.responses }) ∧
  (∀ (s t : State) (i : Instr), s.block = .faulted → exec i s = .next t → t.block ≠ .faulted →
    ∃ kind g l p, i = .configure kind g l p) ∧
  ∀ s : State, s.block = .faulted →
    (illegalCmd s).block = .faulted ∧ (resetBlock s).block = .unconfigured

/-- R229, R230: STATIC predicts Taken for every pc, and its TRAIN writes no state. -/
def Obligations.StaticPredictsTakenAndNeverTrains : Prop :=
  ∀ (s : State) (pc : Pc) (o : Bit), s.block = .configured .static →
    exec (.predict pc) s = .next { s with responses := 0x01#8 :: s.responses } ∧
    exec (.train pc o) s = .next { s with responses := 0x00#8 :: s.responses }

/-- R231: PREDICT writes no state, whatever the kind and the mode. -/
def Obligations.PredictWritesNoState : Prop :=
  ∀ (s : State) (pc : Pc), ∃ r, exec (.predict pc) s = .next { s with responses := r :: s.responses }

/-! ### The GSHARE kind -/

/-- R131, R132, R134: PREDICT reads the counter at the low `g` bits of the pc XORed with the history. -/
def Obligations.GsharePredictReadsTheFoldedCounter : Prop :=
  ∀ (s : State) (g : Width) (t : GshareTables) (pc : Pc), s.block = .configured (.gshare g t) →
    exec (.predict pc) s =
      .next { s with responses :=
        (if 2 ≤ ctrRead 2 t.gsPht ((pc.toNat % 2 ^ g.toNat) ^^^ t.gsGhr) then 0x01#8 else 0x00#8) :: s.responses }

/-- R133, R135, and the frame of R40: TRAIN steps the counter at the index formed before the shift, shifts the outcome
into the history, and changes no other counter. -/
def Obligations.GshareTrainStepsOneCounterThenShifts : Prop :=
  ∀ (s : State) (g : Width) (t : GshareTables) (pc : Pc) (o : Bit), s.Inv → s.block = .configured (.gshare g t) →
    ∃ t' : GshareTables,
      exec (.train pc o) s = .next { s with block := .configured (.gshare g t'),
                                            responses := 0x00#8 :: s.responses } ∧
      t'.gsGhr = (2 * t.gsGhr + o.toNat) % 2 ^ g.toNat ∧
      ∀ i, ctrRead 2 t'.gsPht i =
        if i = (pc.toNat % 2 ^ g.toNat) ^^^ t.gsGhr then
          (if o then min (ctrRead 2 t.gsPht i + 1) 3 else ctrRead 2 t.gsPht i - 1)
        else ctrRead 2 t.gsPht i

/-! ### The TOURNAMENT kind -/

/-- R151–R155: PREDICT takes the local reading where the meta counter reads Not-Taken, the gshare reading where it
reads Taken. -/
def Obligations.TournamentPredictFollowsTheSelector : Prop :=
  ∀ (s : State) (g l p : Width) (t : TournamentTables) (pc : Pc),
    s.block = .configured (.tournament g l p t) →
    exec (.predict pc) s =
      .next { s with responses :=
        (if (if ctrRead 2 t.tMeta (pc.toNat % 2 ^ p.toNat) < 2
              then 2 ≤ ctrRead 2 t.localPred.tLpt (histRead t.localPred.tLht (pc.toNat % 2 ^ p.toNat))
              else 2 ≤ ctrRead 2 t.globalPred.gsPht ((pc.toNat % 2 ^ g.toNat) ^^^ t.globalPred.gsGhr))
          then 0x01#8 else 0x00#8) :: s.responses }

/-- R156–R161, R160, and the frame of R40: the whole effect of a TRAIN on every entry of every table. -/
def Obligations.TournamentTrainEffect : Prop :=
  ∀ (s : State) (g l p : Width) (t : TournamentTables) (pc : Pc) (o : Bit),
    s.Inv → s.block = .configured (.tournament g l p t) →
    ∃ t' : TournamentTables,
      exec (.train pc o) s = .next { s with block := .configured (.tournament g l p t'),
                                            responses := 0x00#8 :: s.responses } ∧
      (∀ i, ctrRead 2 t'.tMeta i =
        let loc := decide (2 ≤ ctrRead 2 t.localPred.tLpt (histRead t.localPred.tLht (pc.toNat % 2 ^ p.toNat)))
        let glob := decide (2 ≤ ctrRead 2 t.globalPred.gsPht ((pc.toNat % 2 ^ g.toNat) ^^^ t.globalPred.gsGhr))
        if i = pc.toNat % 2 ^ p.toNat ∧ loc ≠ glob then
          (if loc = o then ctrRead 2 t.tMeta i - 1 else min (ctrRead 2 t.tMeta i + 1) 3)
        else ctrRead 2 t.tMeta i) ∧
      (∀ i, ctrRead 2 t'.localPred.tLpt i =
        if i = histRead t.localPred.tLht (pc.toNat % 2 ^ p.toNat) then
          (if o then min (ctrRead 2 t.localPred.tLpt i + 1) 3 else ctrRead 2 t.localPred.tLpt i - 1)
        else ctrRead 2 t.localPred.tLpt i) ∧
      (∀ i, histRead t'.localPred.tLht i =
        if i = pc.toNat % 2 ^ p.toNat then (2 * histRead t.localPred.tLht i + o.toNat) % 2 ^ l.toNat
        else histRead t.localPred.tLht i) ∧
      (∀ i, ctrRead 2 t'.globalPred.gsPht i =
        if i = (pc.toNat % 2 ^ g.toNat) ^^^ t.globalPred.gsGhr then
          (if o then min (ctrRead 2 t.globalPred.gsPht i + 1) 3 else ctrRead 2 t.globalPred.gsPht i - 1)
        else ctrRead 2 t.globalPred.gsPht i) ∧
      t'.globalPred.gsGhr = (2 * t.globalPred.gsGhr + o.toNat) % 2 ^ g.toNat

/-- R163: when the readings of a TRAIN disagree, the meta counter of the address moves exactly one step toward the
sub-predictor that matched the outcome unless it is saturated that way, and both sub-predictors advance. -/
def Obligations.MetaCounterMovesOneStepOnDivergence : Prop :=
  ∀ (s : State) (g l p : Width) (t t' : TournamentTables) (u : State) (pc : Pc) (o : Bit),
    s.Inv → s.block = .configured (.tournament g l p t) →
    exec (.train pc o) s = .next u → u.block = .configured (.tournament g l p t') →
    localReading blockParams p.toNat t.localPred pc ≠ gsReading blockParams g.toNat t.globalPred pc →
    (let m := ctrRead 2 t.tMeta (pc.toNat % 2 ^ p.toNat)
     let m' := ctrRead 2 t'.tMeta (pc.toNat % 2 ^ p.toNat)
     (gsReading blockParams g.toNat t.globalPred pc = o → (m < 3 ∧ m' = m + 1) ∨ (m = 3 ∧ m' = 3)) ∧
     (localReading blockParams p.toNat t.localPred pc = o → (0 < m ∧ m' + 1 = m) ∨ (m = 0 ∧ m' = 0))) ∧
    t'.localPred = localTrainStep blockParams l.toNat p.toNat t.localPred pc o ∧
    t'.globalPred = gsTrainStep blockParams g.toNat t.globalPred pc o

/-! ### The PERCEPTRON kind -/

/-- R182: both values of the index parameter; this block's is `XOR`. -/
def Obligations.PerceptronIndexModes : Prop :=
  (∀ (P : Params) (g : Nat) (t : PerceptronTables) (pc : Pc),
    (P.percIndex = .xor → pIndex P g t pc = (pc.toNat ^^^ t.pGhr) % 2 ^ g ∧
      (t.pGhr < 2 ^ g → pIndex P g t pc = (pc.toNat % 2 ^ g) ^^^ t.pGhr)) ∧
    (P.percIndex = .pc → pIndex P g t pc = pc.toNat % 2 ^ g)) ∧
  blockParams.percIndex = .xor

/-- R184, R185, R191: PREDICT answers the sign of the bias plus the sum of weights times history signs, 0 counting as
Taken. -/
def Obligations.PerceptronPredictIsTheSignOfTheSum : Prop :=
  ∀ (s : State) (g : Width) (theta : Nat) (t : PerceptronTables) (pc : Pc),
    s.block = .configured (.perceptron g theta t) →
    exec (.predict pc) s =
      .next { s with responses :=
        (if 0 ≤ 1 + ∑ j ∈ Finset.range g.toNat,
              weightAt (pEntry g.toNat t ((pc.toNat ^^^ t.pGhr) % 2 ^ g.toNat)) j
                * (if t.pGhr.testBit j then 1 else -1)
          then 0x01#8 else 0x00#8) :: s.responses }

/-- R187–R190, R192, and the frame of R40, for any parameters: the whole effect of a TRAIN. With `y` the dot product,
the weights of the entry are written only when the prediction was wrong or `|y|` is below THETA; if then some new
weight is out of the `W_BITS` range the TRAIN answers WEIGHT_RANGE and the block is FAULTED; otherwise every lane
of that entry moves, no other entry does, and the history shifts. `exec` is this at the block's own parameters. -/
def Obligations.PerceptronTrainEffect : Prop :=
  (∀ (s : State) (pc : Pc) (o : Bit), exec (.train pc o) s = .next (trainCmd blockParams pc o s)) ∧
  ∀ (P : Params) (s : State) (g : Width) (theta : Nat) (t : PerceptronTables) (pc : Pc) (o : Bit),
    BlockOk P s.block → s.block = .configured (.perceptron g theta t) →
    let k := pIndex P g.toNat t pc
    let sgn := fun b : Bool => if b then (1 : Int) else -1
    let w := fun j => weightAt (pEntry g.toNat t k) j
    let y := 1 + ∑ j ∈ Finset.range g.toNat, w j * sgn (t.pGhr.testBit j)
    let w' := fun j => w j + sgn o * sgn (t.pGhr.testBit j)
    let update := (decide (0 ≤ y) ≠ o) ∨ |y| < (theta : Int)
    let overflow := ∃ b, P.wBits = some b ∧
      ∃ j < g.toNat, w' j < -(2 : Int) ^ (b - 1) ∨ (2 : Int) ^ (b - 1) - 1 < w' j
    (update ∧ overflow → trainCmd P pc o s = { s with block := .faulted, responses := 0x40#8 :: s.responses }) ∧
    (¬ (update ∧ overflow) → ∃ t' : PerceptronTables,
      trainCmd P pc o s = { s with block := .configured (.perceptron g theta t'),
                                   responses := 0x00#8 :: s.responses } ∧
      t'.pGhr = (2 * t.pGhr + o.toNat) % 2 ^ g.toNat ∧
      (update → ∀ i, (i = k → ∀ j < g.toNat, weightAt (pEntry g.toNat t' i) j = w' j) ∧
        (i ≠ k → pEntry g.toNat t' i = pEntry g.toNat t i)) ∧
      (¬ update → ∀ i, pEntry g.toNat t' i = pEntry g.toNat t i))

/-- R264: for any parameters, WEIGHT_RANGE is what the TRAIN of a PERCEPTRON block answers when `W_BITS` is finite and
the weight update would leave its range; then MODE becomes FAULTED and nothing else is written. No other TRAIN
answers it, with `UNBOUNDED` none does, and no NOP, CONFIGURE, PREDICT or illegal word ever does. -/
def Obligations.WeightRangeFaultsTheBlock : Prop :=
  ∀ (P : Params) (s : State) (pc : Pc) (o : Bit),
    ((∃ b g theta t, P.wBits = some b ∧ s.block = .configured (.perceptron g theta t) ∧
        pNeedUpdate theta (pDot P g.toNat t pc) o = true ∧
        ∃ j < g.toNat,
          let v := weightAt (pEntry g.toNat t (pIndex P g.toNat t pc)) j + bipolar o * bipolar (t.pGhr.testBit j)
          v < -(2 : Int) ^ (b - 1) ∨ (2 : Int) ^ (b - 1) - 1 < v) →
      trainCmd P pc o s = { s with block := .faulted, responses := 0x40#8 :: s.responses }) ∧
    ((trainCmd P pc o s).responses = 0x40#8 :: s.responses →
      P.wBits ≠ none ∧ (trainCmd P pc o s).block = .faulted ∧
      ∃ g theta t, s.block = .configured (.perceptron g theta t) ∧
        pNeedUpdate theta (pDot P g.toNat t pc) o = true ∧
        ∃ w ∈ newWeights g.toNat (pEntry g.toNat t (pIndex P g.toNat t pc)) t.pGhr o,
          weightInRange P.wBits w = false) ∧
    (nopCmd s).responses ≠ 0x40#8 :: s.responses ∧
    (∀ kind g l p, (configureCmd P kind g l p s).responses ≠ 0x40#8 :: s.responses) ∧
    (predictCmd P pc s).responses ≠ 0x40#8 :: s.responses ∧
    (illegalCmd s).responses ≠ 0x40#8 :: s.responses

/-- R194, for any parameters: a correct prediction with `|y|` at least THETA leaves the weights as they were; a wrong
one changes every weight of the entry, unless the TRAIN raises WEIGHT_RANGE (the block is then no longer
configured). -/
def Obligations.WeightsChangeSelectively : Prop :=
  ∀ (P : Params) (s : State) (g : Width) (theta : Nat) (t t' : PerceptronTables) (pc : Pc) (o : Bit),
    BlockOk P s.block → s.block = .configured (.perceptron g theta t) →
    (trainCmd P pc o s).block = .configured (.perceptron g theta t') →
    let y := pDot P g.toNat t pc
    let k := pIndex P g.toNat t pc
    (pPred y = o ∧ (theta : Int) ≤ |y| → ∀ i, pEntry g.toNat t' i = pEntry g.toNat t i) ∧
    (pPred y ≠ o → ∀ j < g.toNat, weightAt (pEntry g.toNat t' k) j ≠ weightAt (pEntry g.toNat t k) j)

/-- R186: the values of THETA for `g` = 1 .. 32; this block takes the formula that gives them. -/
def Obligations.ThetaValues : Prop :=
  (List.range 32).map (fun i => blockParams.theta (i + 1))
    = [15, 17, 19, 21, 23, 25, 27, 29, 31, 33, 35, 37, 39, 41, 42, 44,
       46, 48, 50, 52, 54, 56, 58, 60, 62, 64, 66, 68, 69, 71, 73, 75] ∧
  ∀ g, blockParams.theta g = (193 * g + 1400) / 100

/-- R193: P_DOT is the exact integer sum; with `W_BITS` finite it is at most `1 + g * 2^(W_BITS-1)` in magnitude, so a
signed accumulator of `W_BITS + ceil(log2(g + 1)) + 1` bits holds it. -/
def Obligations.DotProductFitsTheAccumulator : Prop :=
  ∀ (P : Params) (b g : Nat) (t : PerceptronTables) (pc : Pc), P.wBits = some b → PerceptronOk P g t →
    pDot P g t pc = 1 + ∑ j ∈ Finset.range g,
      weightAt (pEntry g t (pIndex P g t pc)) j * (if t.pGhr.testBit j then 1 else -1) ∧
    |pDot P g t pc| ≤ 1 + (g : Int) * 2 ^ (b - 1) ∧
    -(2 : Int) ^ (accumulatorBits b g - 1) ≤ pDot P g t pc ∧
    pDot P g t pc < (2 : Int) ^ (accumulatorBits b g - 1)

/-- R195: after `u` updates of an entry, with whatever histories and outcomes, every weight is congruent to `u` modulo
2 and the dot product to `1 + g * u`, so it is 0 only when `g * u` is odd. -/
def Obligations.WeightsAndDotProductKeepParity : Prop :=
  ∀ (g h : Nat) (ups : List (Nat × Bit)),
    let ws := ups.foldl (fun ws x => newWeights g ws x.1 x.2) (zeroWeights g)
    (∀ w ∈ ws, (w - ups.length) % 2 = 0) ∧
    (dotWeights g ws h - (1 + (g : Int) * ups.length)) % 2 = 0 ∧
    (dotWeights g ws h = 0 → (g * ups.length) % 2 = 1)

/-- R225 with R105, R110 for the fresh state; R132, R134, R154, R155, R185, R191, R229 for what each kind predicts from
it: right after a valid CONFIGURE every pc is predicted Not-Taken by GSHARE and TOURNAMENT and Taken by PERCEPTRON;
STATIC, which has no state, predicts Taken too. -/
def Obligations.FreshPredictions : Prop :=
  ∀ (s t : State) (kind : BitVec 4) (g l p : BitVec 8) (pc : Pc),
    cfgValid blockParams kind g l p = true → exec (.configure kind g l p) s = .next t →
    exec (.predict pc) t = .next { t with responses :=
      (if kind = 1#4 ∨ kind = 2#4 then 0x00#8 else 0x01#8) :: t.responses }

/-! ### The machine as a whole -/

/-- R221, and the port of log entry 1: when the word the block takes next decodes, the step is `exec` of the command
on the machine with that word taken. -/
def Obligations.StepRunsTheDecodedCommand : Prop :=
  ∀ (s : State) (c : Word) (rest : List HostInput) (i : Instr),
    s.inputs = .command c :: rest → decode c = .instr i → step s = exec i { s with inputs := rest }

/-- R261, R290, R277, and the port of log entries 1 and 4: an illegal word is answered ILLEGAL_CMD, the reset input
makes the block UNCONFIGURED without a response, and with nothing sent the machine stays as it is. -/
def Obligations.StepOnOtherInputs : Prop :=
  (∀ (s : State) (c : Word) (rest : List HostInput) (cause : IllegalCause),
    s.inputs = .command c :: rest → decode c = .illegal cause →
    step s = .next { s with inputs := rest, responses := 0x30#8 :: s.responses }) ∧
  (∀ (s : State) (rest : List HostInput), s.inputs = .reset :: rest →
    step s = .next { s with inputs := rest, block := .unconfigured }) ∧
  (∀ s : State, s.inputs = [] → step s = .next s)

/-- R290, R291: the reset input makes the block UNCONFIGURED in every state, so is it right after reset, when the model
has nothing else of it; the bias is +1 even then. -/
def Obligations.ResetLeavesUnconfigured : Prop :=
  (∀ s : State, (resetBlock s).block = .unconfigured) ∧ State.reset.block = .unconfigured ∧
  modeOf State.reset.block = .unconfigured ∧ pBias = 1

/-- R21, R22, R81: the codes of MODE and KIND, and the kind each `kind` field selects. -/
def Obligations.ModeAndKindCodes : Prop :=
  [Mode.unconfigured, .configured, .faulted].map modeCode = [0#2, 1#2, 2#2] ∧
  [Kind.static, .gshare, .tournament, .perceptron].map kindCode = [0#2, 1#2, 2#2, 3#2] ∧
  (∀ (k : BitVec 4) (kd : Kind), kindOfField k = some kd ↔ (kindCode kd).toNat = k.toNat) ∧
  ∀ k : BitVec 4, kindOfField k = none ↔ 4 ≤ k.toNat

/-- R267: a command whose response is not OK writes nothing but the one change its status names, and an illegal word
writes nothing. -/
def Obligations.ErrorsAreAtomic : Prop :=
  (∀ s : State, illegalCmd s = { s with responses := 0x30#8 :: s.responses }) ∧
  ∀ (i : Instr) (s : State), ∃ (b : Block) (r : Byte),
    exec i s = .next { s with block := b, responses := r :: s.responses } ∧
    (statusField r ≠ 0#4 →
      b = if statusField r = 1#4 then .unconfigured else if statusField r = 4#4 then .faulted else s.block)

/-- R266: which status a command gets, first match wins. The machine takes the command from the port of log entry 1. -/
def Obligations.StatusPriority : Prop :=
  ∀ (s : State) (c : Word) (rest : List HostInput), s.inputs = .command c :: rest →
    ∃ (t : State) (r : Byte), step s = .next t ∧ t.responses = r :: s.responses ∧
      statusField r =
        match decode c with
        | .illegal _ => 3#4
        | .instr (.configure kind g l p) => if cfgValid blockParams kind g l p then 0#4 else 1#4
        | .instr .nop => 0#4
        | .instr (.predict _) =>
          match s.block with
          | .faulted => 5#4
          | .unconfigured => 2#4
          | .configured _ => 0#4
        | .instr (.train pc o) =>
          match s.block with
          | .faulted => 5#4
          | .unconfigured => 2#4
          | .configured (.perceptron g theta tabs) =>
            if pNeedUpdate theta (pDot blockParams g.toNat tabs pc) o &&
                (newWeights g.toNat (pEntry g.toNat tabs (pIndex blockParams g.toNat tabs pc)) tabs.pGhr o).any
                  (fun w => !weightInRange blockParams.wBits w)
              then 4#4 else 0#4
          | .configured _ => 0#4

/-- R40, R22–R26: a TRAIN of a configured block leaves KIND, the width registers and THETA as they were; the one
exception is the PERCEPTRON run that becomes FAULTED. -/
def Obligations.TrainKeepsTheConfiguration : Prop :=
  ∀ (s : State) (r : Run) (pc : Pc) (o : Bit), s.block = .configured r →
    ∃ (b : Block) (w : Byte), exec (.train pc o) s = .next { s with block := b, responses := w :: s.responses } ∧
      match r with
      | .static => b = .configured .static
      | .gshare g _ => ∃ t, b = .configured (.gshare g t)
      | .tournament g l p _ => ∃ t, b = .configured (.tournament g l p t)
      | .perceptron g theta _ =>
        (b = .faulted ∧ blockParams.wBits ≠ none) ∨ ∃ t, b = .configured (.perceptron g theta t)

/-- R21: the only events that change MODE are reset (to UNCONFIGURED), CONFIGURE, and a TRAIN of a PERCEPTRON
configuration (to FAULTED). The machine takes them from the port of log entry 1. -/
def Obligations.OnlyTheseEventsChangeMode : Prop :=
  ∀ s t : State, step s = .next t → modeOf t.block ≠ modeOf s.block →
    ∃ (h : HostInput) (rest : List HostInput), s.inputs = h :: rest ∧
      ((h = .reset ∧ modeOf t.block = .unconfigured) ∨
       (∃ c kind g l p, h = .command c ∧ decode c = .instr (.configure kind g l p) ∧
          (modeOf t.block = .configured ∨ modeOf t.block = .unconfigured)) ∨
       (∃ c pc o g theta tabs, h = .command c ∧ decode c = .instr (.train pc o) ∧
          s.block = .configured (.perceptron g theta tabs) ∧ modeOf t.block = .faulted))

/-- R278 and R232: with `W_BITS` = `UNBOUNDED`, once the block is configured every PREDICT and TRAIN answers OK and it
stays configured. -/
def Obligations.UnboundedRunsNeverFail : Prop :=
  ∀ (P : Params) (s : State) (r : Run) (pc : Pc) (o : Bit), P.wBits = none → s.block = .configured r →
    (∃ w, predictCmd P pc s = { s with responses := w :: s.responses } ∧ statusField w = 0#4) ∧
    (∃ r', trainCmd P pc o s = { s with block := .configured r', responses := 0x00#8 :: s.responses })

/-- R276, R131, R151, R182: pcs with equal low index bits share every entry, so PREDICT and TRAIN cannot tell them
apart, and no status reports it. -/
def Obligations.AliasedAddressesAreIndistinguishable : Prop :=
  ∀ (s : State) (pc pc' : Pc) (o : Bit),
    (match s.block with
      | .configured (.gshare g _) => pc.toNat % 2 ^ g.toNat = pc'.toNat % 2 ^ g.toNat
      | .configured (.tournament g _ p _) =>
        pc.toNat % 2 ^ g.toNat = pc'.toNat % 2 ^ g.toNat ∧ pc.toNat % 2 ^ p.toNat = pc'.toNat % 2 ^ p.toNat
      | .configured (.perceptron g _ _) => pc.toNat % 2 ^ g.toNat = pc'.toNat % 2 ^ g.toNat
      | _ => True) →
    exec (.predict pc) s = exec (.predict pc') s ∧ exec (.train pc o) s = exec (.train pc' o) s

/-- R57, R78: the block takes every input in order and gets to the end of them, each command answered by exactly one
legal response and a reset by none. -/
def Obligations.EveryCommandIsAnsweredOnce : Prop :=
  ∀ s : State, ∃ (t : State) (rs : List Byte),
    Host.Core.run Sys2Proof.core s.inputs.length s = .next t ∧ t.inputs = [] ∧
    t.responses = rs ++ s.responses ∧ rs.length = s.inputs.countP isCommand ∧ ∀ r ∈ rs, ResponseOk r

/-- The invariant every step keeps: legal widths (R23–R25), THETA as loaded (R26), counters, histories and weights in
their domains (R52, R106, R109, R189, R195), FAULTED only with finite `W_BITS` (R21), legal responses (R260). -/
def Obligations.EveryStepKeepsTheInvariant : Prop :=
  ∀ s t : State, s.Inv → step s = .next t → t.Inv

/-- The invariant holds right after reset. -/
def Obligations.ResetMeetsTheInvariant : Prop := State.reset.Inv

/-- R61, R136, R293, on the port of log entries 1 and 2: from any two states with the same inputs that begin with a CONFIGURE, every number of steps gives
the same block and the same new responses: a replay is bit for bit the same. -/
def Obligations.ReplayAfterConfigureIsDeterministic : Prop :=
  ∀ (s₁ s₂ : State) (kind : BitVec 4) (g l p : BitVec 8) (rest : List HostInput) (n : Nat),
    s₁.inputs = .command (encode (.configure kind g l p)) :: rest → s₂.inputs = s₁.inputs →
    ∃ (t₁ t₂ : State) (rs : List Byte),
      Host.Core.run Sys2Proof.core (n + 1) s₁ = .next t₁ ∧ Host.Core.run Sys2Proof.core (n + 1) s₂ = .next t₂ ∧
      t₁.block = t₂.block ∧ t₁.inputs = t₂.inputs ∧
      t₁.responses = rs ++ s₁.responses ∧ t₂.responses = rs ++ s₂.responses

/-- R40, R231, R296, on the port of log entry 1: the block after a sequence of inputs is the block after the resets, CONFIGUREs and TRAINs among
them alone: no PREDICT, NOP or illegal word leaves a trace in it. -/
def Obligations.OnlyWritingInputsMatter : Prop :=
  ∀ s : State, ∃ t t' : State,
    Host.Core.run Sys2Proof.core s.inputs.length s = .next t ∧
    Host.Core.run Sys2Proof.core (s.inputs.filter mayWrite).length { s with inputs := s.inputs.filter mayWrite }
      = .next t' ∧
    t.block = t'.block

/-- R294, R295, R297: under the host's protocol (`followsProtocol`, log entry 12), when the TRAIN that follows a PREDICT comes to be taken it carries the
PREDICT's pc and meets the block the PREDICT met, so every value it recomputes is the one the PREDICT computed. -/
def Obligations.TrainMeetsTheBlockItsPredictMet : Prop :=
  ∀ (s : State) (c₁ c₂ : Word) (pc pc' : Pc) (o : Bit) (mid rest : List HostInput),
    s.inputs = .command c₁ :: (mid ++ .command c₂ :: rest) →
    decode c₁ = .instr (.predict pc) → decode c₂ = .instr (.train pc' o) →
    (∀ h ∈ mid, ∀ c q b, h = .command c → decode c ≠ .instr (.train q b)) →
    followsProtocol none s.inputs = true →
    ∃ t : State, Host.Core.run Sys2Proof.core (mid.length + 1) s = .next t ∧
      t.inputs = .command c₂ :: rest ∧ t.block = s.block ∧ pc' = pc

/-- R226, R292, on the port of log entries 1 and 2: once a CONFIGURE has failed, and until one succeeds, the block stays
UNCONFIGURED and answers each later command taken, in order: every PREDICT and TRAIN NOT_CONFIGURED (`0x20`), every
CONFIGURE CFG_ERR, an illegal word ILLEGAL_CMD, NOP OK; a reset gets no answer (log entry 4). `rs` is newest first. -/
def Obligations.FailedConfigureLeavesUnconfiguredUntilOneSucceeds : Prop :=
  ∀ (s : State) (kind : BitVec 4) (g l p : BitVec 8) (rest : List HostInput) (n : Nat),
    s.inputs = .command (encode (.configure kind g l p)) :: rest →
    cfgValid blockParams kind g l p = false →
    (∀ h ∈ rest, ∀ c k a b d, h = .command c → decode c = .instr (.configure k a b d) →
      cfgValid blockParams k a b d = false) →
    ∃ (t : State) (rs : List Byte),
      Host.Core.run Sys2Proof.core (n + 1) s = .next t ∧ t.block = .unconfigured ∧
      t.responses = rs ++ 0x10#8 :: s.responses ∧
      rs.reverse = (rest.take n).filterMap (fun h =>
        match h with
        | .reset => none
        | .command c =>
          match decode c with
          | .illegal _ => some 0x30#8
          | .instr .nop => some 0x00#8
          | .instr (.configure _ _ _ _) => some 0x10#8
          | .instr (.predict _) => some 0x20#8
          | .instr (.train _ _) => some 0x20#8)
end

