-- ==== Sys2Proof/Laws/Tables.lean ====
section
/-! SUPPORT. The laws of table read and write (20_memory.md R51, R52): every write keeps the canonical form, keeps
the indexes in range and keeps any property of the entries that the value written has. -/

namespace Sys2Proof.Machine

/-- The index of every entry after a write is one that was listed, or the one written. -/
theorem Table.mem_write {α : Type} [DecidableEq α] {init : α} {t : Table α} {i : Nat} {v : α} {c : Nat × α}
    (h : c ∈ Table.write init t i v) : c ∈ t ∨ (c = (i, v) ∧ v ≠ init) := by
  induction t with
  | nil =>
    simp only [Table.write] at h
    split at h
    · simp at h
    · exact .inr ⟨by simpa using h, ‹_›⟩
  | cons d t ih =>
    obtain ⟨j, w⟩ := d
    simp only [Table.write] at h
    split at h
    · split at h
      · exact .inl h
      · rcases List.mem_cons.mp h with h | h
        · exact .inr ⟨h, ‹_›⟩
        · exact .inl h
    · split at h
      · split at h
        · exact .inl (List.mem_cons_of_mem _ h)
        · rcases List.mem_cons.mp h with h | h
          · exact .inr ⟨h, ‹_›⟩
          · exact .inl (List.mem_cons_of_mem _ h)
      · rcases List.mem_cons.mp h with h | h
        · exact .inl (by simp [h])
        · exact (ih h).imp_left (List.mem_cons_of_mem _)

/-- A write keeps the canonical form. -/
theorem Table.canonical_write {α : Type} [DecidableEq α] {init : α} {t : Table α} (i : Nat) (v : α)
    (h : t.Canonical init) : Table.Canonical init (Table.write init t i v) := by
  refine ⟨?_, fun c hc => (Table.mem_write hc).elim (h.2 c) (fun e => by rw [e.1]; exact e.2)⟩
  obtain ⟨hp, hn⟩ := h
  induction t with
  | nil => simp only [Table.write]; split <;> simp
  | cons d t ih =>
    obtain ⟨j, w⟩ := d
    have hj := (List.pairwise_cons.mp hp).1
    have ht := (List.pairwise_cons.mp hp).2
    simp only [Table.write]
    split
    · split
      · exact hp
      · refine List.pairwise_cons.mpr ⟨fun b hb => ?_, hp⟩
        rcases List.mem_cons.mp hb with rfl | hb
        · assumption
        · exact Nat.lt_trans ‹_› (hj b hb)
    · split
      · subst_vars
        split
        · exact ht
        · exact List.pairwise_cons.mpr ⟨hj, ht⟩
      · refine List.pairwise_cons.mpr ⟨fun b hb => ?_, ih ht (fun c hc => hn c (List.mem_cons_of_mem _ hc))⟩
        rcases Table.mem_write hb with hb | ⟨rfl, -⟩
        · exact hj b hb
        · show j < i
          omega

/-- A write at an index of the table keeps the indexes in range. -/
theorem Table.inRange_write {α : Type} [DecidableEq α] {init : α} {k : Nat} {t : Table α} {i : Nat} (v : α)
    (h : t.InRange k) (hi : i < 2 ^ k) : Table.InRange k (Table.write init t i v) := fun c hc =>
  (Table.mem_write hc).elim (h c) (fun e => by rw [e.1]; exact hi)

/-- A write keeps what holds of every listed value and of the value written. -/
theorem Table.forall_write {α : Type} [DecidableEq α] {init : α} {p : α → Prop} {t : Table α} {v : α} (i : Nat)
    (h : ∀ c ∈ t, p c.2) (hv : p v) : ∀ c ∈ Table.write init t i v, p c.2 := fun c hc =>
  (Table.mem_write hc).elim (h c) (fun e => by rw [e.1]; exact hv)

/-- A read answers the initial value or a listed one. -/
theorem Table.read_of_forall {α : Type} {init : α} {p : α → Prop} {t : Table α} (i : Nat) (hi : p init)
    (h : ∀ c ∈ t, p c.2) : p (Table.read init t i) := by
  induction t with
  | nil => exact hi
  | cons d t ih =>
    simp only [Table.read]
    split
    · exact h d (by simp)
    · exact ih (fun c hc => h c (List.mem_cons_of_mem _ hc))

/-- An index below every listed one reads the initial value. -/
theorem Table.read_of_lt {α : Type} {init : α} {t : Table α} {i : Nat} (h : ∀ c ∈ t, i < c.1) :
    Table.read init t i = init := by
  induction t with
  | nil => rfl
  | cons d t ih =>
    have hd := h d (by simp)
    simp only [Table.read]
    rw [if_neg (by omega)]
    exact ih (fun c hc => h c (List.mem_cons_of_mem _ hc))

/-- Read after write, in a canonical table (R52). -/
theorem Table.read_write {α : Type} [DecidableEq α] {init : α} {t : Table α} (i j : Nat) (v : α)
    (h : t.Canonical init) :
    Table.read init (Table.write init t i v) j = if j = i then v else Table.read init t j := by
  obtain ⟨hp, hn⟩ := h
  induction t with
  | nil =>
    simp only [Table.write]
    split <;> simp_all [Table.read]
  | cons d t ih =>
    obtain ⟨k, w⟩ := d
    have hk := (List.pairwise_cons.mp hp).1
    have ht := (List.pairwise_cons.mp hp).2
    have ih := ih ht (fun c hc => hn c (List.mem_cons_of_mem _ hc))
    simp only [Table.write]
    split
    · have hlow : Table.read init ((k, w) :: t) i = init := Table.read_of_lt (by
        intro c hc
        rcases List.mem_cons.mp hc with rfl | hc
        · assumption
        · exact Nat.lt_trans ‹_› (hk c hc))
      split
      · split
        · subst_vars; exact hlow
        · rfl
      · simp only [Table.read]
    · split
      · subst_vars
        have hlow : Table.read init t k = init := Table.read_of_lt hk
        split
        · split
          · subst_vars; exact hlow
          · simp [Table.read, ‹¬ j = k›]
        · simp only [Table.read]
          split <;> rfl
      · simp only [Table.read, ih]
        split <;> split <;> first | rfl | omega

/-- Two canonical tables that read alike everywhere are equal: equal tables are equal data. -/
theorem Table.eq_of_read_eq {α : Type} {init : α} {t u : Table α} (ht : t.Canonical init) (hu : u.Canonical init)
    (h : ∀ i, Table.read init t i = Table.read init u i) : t = u := by
  induction t generalizing u with
  | nil =>
    cases u with
    | nil => rfl
    | cons d u =>
      have hd := h d.1
      simp [Table.read] at hd
      exact absurd hd.symm (hu.2 d (by simp))
  | cons c t ih =>
    cases u with
    | nil =>
      have hc := h c.1
      simp [Table.read] at hc
      exact absurd hc (ht.2 c (by simp))
    | cons d u =>
      obtain ⟨i, v⟩ := c
      obtain ⟨j, w⟩ := d
      have htp := List.pairwise_cons.mp ht.1
      have hup := List.pairwise_cons.mp hu.1
      have hv : v ≠ init := ht.2 (i, v) (by simp)
      have hw : w ≠ init := hu.2 (j, w) (by simp)
      have hij : i = j := by
        rcases Nat.lt_trichotomy i j with hlt | heq | hgt
        · have := h i
          rw [Table.read_of_lt (t := (j, w) :: u) (by
            intro c hc
            rcases List.mem_cons.mp hc with rfl | hc
            · exact hlt
            · exact Nat.lt_trans hlt (hup.1 c hc))] at this
          simp [Table.read] at this
          exact absurd this hv
        · exact heq
        · have := h j
          rw [Table.read_of_lt (t := (i, v) :: t) (by
            intro c hc
            rcases List.mem_cons.mp hc with rfl | hc
            · exact hgt
            · exact Nat.lt_trans hgt (htp.1 c hc))] at this
          simp [Table.read] at this
          exact absurd this.symm hw
      subst hij
      have hvw : v = w := by simpa [Table.read] using h i
      subst hvw
      refine congrArg _ (ih ⟨htp.2, fun c hc => ht.2 c (by simp [hc])⟩ ⟨hup.2, fun c hc => hu.2 c (by simp [hc])⟩ ?_)
      intro k
      by_cases hk : k = i
      · subst hk
        rw [Table.read_of_lt htp.1, Table.read_of_lt hup.1]
      · simpa [Table.read, hk] using h k

end Sys2Proof.Machine
end

