-- ==== Sys2Proof/Laws/Counters.lean ====
section
/-! SUPPORT. What the shared primitives answer, as arithmetic (00_scope.md R10, 40_counter_history.md R102–R112), and
that the table operations keep counter tables and history tables in their domains. -/

namespace Sys2Proof.Machine

/-- Masking is the remainder (R10). -/
theorem and_mask (x b : Nat) : x &&& mask b = x % 2 ^ b := by
  simp [mask, Nat.one_shiftLeft, Nat.and_two_pow_sub_one_eq_mod]

/-- The low bits of a pc as a remainder. -/
theorem pcLow_eq (pc : Pc) (k : Nat) : pcLow pc k = pc.toNat % 2 ^ k := and_mask _ _

theorem pcLow_lt (pc : Pc) (k : Nat) : pcLow pc k < 2 ^ k := by
  rw [pcLow_eq]; exact Nat.mod_lt _ (Nat.two_pow_pos k)

/-- HR_SHIFT as arithmetic (R108). -/
theorem hrShift_eq (r : Nat) (o : Bit) (w : Nat) : hrShift r o w = (2 * r + o.toNat) % 2 ^ w := by
  rw [hrShift, and_mask]
  congr 1
  have h : o.toNat < 2 ^ 1 := by cases o <;> decide
  rw [← Nat.shiftLeft_add_eq_or_of_lt h, Nat.shiftLeft_eq]
  omega

theorem hrShift_lt (r : Nat) (o : Bit) (w : Nat) : hrShift r o w < 2 ^ w := by
  rw [hrShift_eq]; exact Nat.mod_lt _ (Nat.two_pow_pos w)

theorem wn_lt (n : Nat) : wn n < 2 ^ n := by
  have h1 : 2 ^ (n - 1) ≤ 2 ^ n := Nat.pow_le_pow_right (by decide) (by omega)
  have h2 := Nat.two_pow_pos (n - 1)
  unfold wn
  omega

/-- An update keeps a counter in its range (R106). -/
theorem scUpdate_lt {n c : Nat} (o : Bit) (h : c < 2 ^ n) : scUpdate n c o < 2 ^ n := by
  unfold scUpdate
  split <;> omega

/-- Every counter of a good table is in its range. -/
theorem ctrRead_lt {n k : Nat} {t : Table Nat} (h : CounterTableOk n k t) (i : Nat) : ctrRead n t i < 2 ^ n :=
  Table.read_of_forall (p := fun c => c < 2 ^ n) i (wn_lt n) h.2.2

/-- Every history of a good table is in its range. -/
theorem histRead_lt {w k : Nat} {t : Table Nat} (h : HistTableOk w k t) (i : Nat) : histRead t i < 2 ^ w :=
  Table.read_of_forall (p := fun c => c < 2 ^ w) i (Nat.two_pow_pos w) h.2.2

/-- A training step changes the one counter it names. -/
theorem ctrRead_ctrTrain {n : Nat} {t : Table Nat} (i j : Nat) (o : Bit) (h : t.Canonical (wn n)) :
    ctrRead n (ctrTrain n t i o) j = if j = i then scUpdate n (ctrRead n t i) o else ctrRead n t j :=
  Table.read_write i j _ h

/-- A history shift changes the one history it names. -/
theorem histRead_histShift {t : Table Nat} (i j : Nat) (o : Bit) (w : Nat) (h : t.Canonical 0) :
    histRead (histShift t i o w) j = if j = i then hrShift (histRead t i) o w else histRead t j :=
  Table.read_write i j _ h

theorem counterTableOk_ctrTrain {n k : Nat} {t : Table Nat} {i : Nat} (o : Bit) (h : CounterTableOk n k t)
    (hi : i < 2 ^ k) : CounterTableOk n k (ctrTrain n t i o) :=
  ⟨Table.canonical_write i _ h.1, Table.inRange_write _ h.2.1 hi,
    Table.forall_write (p := fun c => c < 2 ^ n) i h.2.2 (scUpdate_lt o (ctrRead_lt h i))⟩

theorem histTableOk_histShift {w k : Nat} {t : Table Nat} {i : Nat} (o : Bit) (h : HistTableOk w k t)
    (hi : i < 2 ^ k) : HistTableOk w k (histShift t i o w) :=
  ⟨Table.canonical_write i _ h.1, Table.inRange_write _ h.2.1 hi,
    Table.forall_write (p := fun c => c < 2 ^ w) i h.2.2 (hrShift_lt _ o w)⟩

/-- A table with nothing listed is good. -/
theorem counterTableOk_nil (n k : Nat) : CounterTableOk n k [] := by
  simp [CounterTableOk, Table.Canonical, Table.InRange]

theorem histTableOk_nil (w k : Nat) : HistTableOk w k [] := by
  simp [HistTableOk, Table.Canonical, Table.InRange]

end Sys2Proof.Machine
end

