-- ==== Sys2Proof/Laws/Predictors.lean ====
section
/-! SUPPORT. What the predictors' indexes and dot product are as arithmetic, and that each training step keeps the
tables in their domains (41_gshare.md, 42_tournament.md, 43_perceptron.md). -/

namespace Sys2Proof.Machine

/-- GS_INDEX (R131). -/
theorem gsIndex_eq (g : Nat) (t : GshareTables) (pc : Pc) : gsIndex g t pc = (pc.toNat % 2 ^ g) ^^^ t.gsGhr := by
  rw [gsIndex, pcLow_eq]

/-- The gshare index is in range without a further mask (R131). -/
theorem gsIndex_lt {P : Params} {g : Nat} {t : GshareTables} (h : GshareOk P g t) (pc : Pc) :
    gsIndex g t pc < 2 ^ g := Nat.xor_lt_two_pow (pcLow_lt pc g) h.1

theorem gshareOk_trainStep {P : Params} {g : Nat} {t : GshareTables} (pc : Pc) (o : Bit) (h : GshareOk P g t) :
    GshareOk P g (gsTrainStep P g t pc o) :=
  ⟨hrShift_lt _ _ _, counterTableOk_ctrTrain o h.2 (gsIndex_lt h pc)⟩

theorem gshareOk_init (P : Params) (g : Nat) : GshareOk P g gsInit :=
  ⟨Nat.two_pow_pos g, counterTableOk_nil _ _⟩

theorem localOk_trainStep {P : Params} {l p : Nat} {t : LocalTables} (pc : Pc) (o : Bit) (h : LocalOk P l p t) :
    LocalOk P l p (localTrainStep P l p t pc o) :=
  ⟨histTableOk_histShift o h.1 (pcLow_lt pc p), counterTableOk_ctrTrain o h.2 (histRead_lt h.1 _)⟩

/-- The meta update leaves the table alone, or trains the address's counter (R156). -/
theorem metaTrain_cases (P : Params) (p : Nat) (t : Table Nat) (pc : Pc) (loc glob o : Bit) :
    (loc = glob ∧ metaTrain P p t pc loc glob o = t) ∨
    (loc ≠ glob ∧ metaTrain P p t pc loc glob o = ctrTrain P.ctrBits t (tPcIdx p pc) (decide (loc ≠ o))) := by
  by_cases h : loc = glob
  · exact .inl ⟨h, if_neg (not_not.mpr h)⟩
  · refine .inr ⟨h, (if_pos h).trans ?_⟩
    by_cases ho : loc = o
    · rw [if_pos ho, decide_eq_false (not_not.mpr ho)]
    · rw [if_neg ho, decide_eq_true ho]

theorem tournamentOk_trainStep {P : Params} {g l p : Nat} {t : TournamentTables} (pc : Pc) (o : Bit)
    (h : TournamentOk P g l p t) : TournamentOk P g l p (tTrainStep P g l p t pc o) := by
  refine ⟨?_, localOk_trainStep pc o h.2.1, gshareOk_trainStep pc o h.2.2⟩
  show CounterTableOk _ _ (metaTrain P p t.tMeta pc _ _ o)
  rcases metaTrain_cases P p t.tMeta pc (localReading P p t.localPred pc) (gsReading P g t.globalPred pc) o with
    ⟨-, e⟩ | ⟨-, e⟩
  · exact e.symm ▸ h.1
  · exact e.symm ▸ counterTableOk_ctrTrain _ h.1 (pcLow_lt pc p)

theorem tournamentOk_init (P : Params) (g l p : Nat) : TournamentOk P g l p tInit :=
  ⟨counterTableOk_nil _ _, ⟨histTableOk_nil _ _, counterTableOk_nil _ _⟩, gshareOk_init P g⟩

/-- P_INDEX in both modes (R182). -/
theorem pIndex_eq (P : Params) (g : Nat) (t : PerceptronTables) (pc : Pc) :
    pIndex P g t pc = match P.percIndex with
      | .xor => (pc.toNat ^^^ t.pGhr) % 2 ^ g
      | .pc => pc.toNat % 2 ^ g := by
  cases h : P.percIndex <;> simp only [pIndex, h, and_mask]

theorem pIndex_lt (P : Params) (g : Nat) (t : PerceptronTables) (pc : Pc) : pIndex P g t pc < 2 ^ g := by
  rw [pIndex_eq]
  split <;> exact Nat.mod_lt _ (Nat.two_pow_pos g)

/-- The loop of P_DOT is the sum (R184). -/
theorem dotWeights_eq (g : Nat) (ws : List Int) (h : Nat) :
    dotWeights g ws h = 1 + ∑ j ∈ Finset.range g, weightAt ws j * bipolar (h.testBit j) := by
  unfold dotWeights
  induction g with
  | zero => rfl
  | succ g ih => rw [List.range_succ, List.foldl_append, ih, Finset.sum_range_succ]; simp [add_assoc]

theorem newWeights_length (g : Nat) (ws : List Int) (h : Nat) (o : Bit) : (newWeights g ws h o).length = g := by
  simp [newWeights]

/-- Each lane moves by the product of the two signs (R188). -/
theorem weightAt_newWeights {g j : Nat} (ws : List Int) (h : Nat) (o : Bit) (hj : j < g) :
    weightAt (newWeights g ws h o) j = weightAt ws j + bipolar o * bipolar (h.testBit j) := by
  simp [newWeights, weightAt, List.getD, hj]

theorem mem_newWeights {g : Nat} {ws : List Int} {h : Nat} {o : Bit} {w : Int} :
    w ∈ newWeights g ws h o ↔ ∃ j < g, w = weightAt ws j + bipolar o * bipolar (h.testBit j) := by
  simp [newWeights, eq_comm]

theorem weightAt_mem {ws : List Int} {j : Nat} (h : j < ws.length) : weightAt ws j ∈ ws := by
  simp [weightAt, List.getD, h]

theorem bipolar_mul_mod_two (a b : Bit) : (bipolar a * bipolar b) % 2 = 1 := by
  cases a <;> cases b <;> decide

/-- A zero weight is in the range of every `W_BITS` (R36). -/
theorem weightInRange_zero (P : Params) : weightInRange P.wBits 0 = true := by
  cases hb : P.wBits with
  | none => rfl
  | some b =>
    have h : (1 : Int) ≤ 2 ^ (b - 1) := one_le_pow₀ (by norm_num)
    simp only [weightInRange, decide_eq_true_eq]
    omega

theorem weightsOk_zeroWeights (P : Params) (g : Nat) : WeightsOk P.wBits g (zeroWeights g) := by
  refine ⟨by simp [zeroWeights], fun w hw => ?_, fun a ha b hb => ?_⟩
  · rw [List.eq_of_mem_replicate hw]; exact weightInRange_zero P
  · rw [List.eq_of_mem_replicate ha, List.eq_of_mem_replicate hb]

/-- Every entry of a good weight table is a good weight vector. -/
theorem weightsOk_pEntry {P : Params} {g : Nat} {t : PerceptronTables} (h : PerceptronOk P g t) (k : Nat) :
    WeightsOk P.wBits g (pEntry g t k) :=
  Table.read_of_forall (p := WeightsOk P.wBits g) k (weightsOk_zeroWeights P g) h.2.2.2

/-- The update keeps a weight vector good when its result is in range (R189, R195). -/
theorem weightsOk_newWeights {wBits : Option Nat} {g : Nat} {ws : List Int} {h : Nat} {o : Bit}
    (hw : WeightsOk wBits g ws) (hr : (newWeights g ws h o).all (weightInRange wBits) = true) :
    WeightsOk wBits g (newWeights g ws h o) := by
  refine ⟨newWeights_length g ws h o, List.all_eq_true.mp hr, fun a ha b hb => ?_⟩
  obtain ⟨i, hi, rfl⟩ := mem_newWeights.mp ha
  obtain ⟨j, hj, rfl⟩ := mem_newWeights.mp hb
  have e := hw.2.2 _ (weightAt_mem (by rw [hw.1]; exact hi)) _ (weightAt_mem (j := j) (by rw [hw.1]; exact hj))
  have hi := bipolar_mul_mod_two o (h.testBit i)
  have hj := bipolar_mul_mod_two o (h.testBit j)
  omega

/-- What TRAIN's table update can answer (R192). -/
theorem pTrainStep_cases (P : Params) (g theta : Nat) (t : PerceptronTables) (pc : Pc) (o : Bit) :
    let k := pIndex P g t pc
    let w' := newWeights g (pEntry g t k) t.pGhr o
    (pNeedUpdate theta (pDot P g t pc) o = false ∧
      pTrainStep P g theta t pc o = some { t with pGhr := hrShift t.pGhr o g }) ∨
    (pNeedUpdate theta (pDot P g t pc) o = true ∧ w'.all (weightInRange P.wBits) = true ∧
      pTrainStep P g theta t pc o
        = some { pW := Table.write (zeroWeights g) t.pW k w', pGhr := hrShift t.pGhr o g }) ∨
    (pNeedUpdate theta (pDot P g t pc) o = true ∧ w'.all (weightInRange P.wBits) = false ∧
      pTrainStep P g theta t pc o = none) := by
  intro k w'
  unfold pTrainStep
  cases h : pNeedUpdate theta (pDot P g t pc) o
  · exact .inl ⟨rfl, by simp⟩
  · cases hw : w'.all (weightInRange P.wBits)
    · exact .inr (.inr ⟨rfl, rfl, by simp only [w', k] at hw; simp [hw]⟩)
    · exact .inr (.inl ⟨rfl, rfl, by simp only [w', k] at hw; simp [hw, w', k]⟩)

theorem perceptronOk_trainStep {P : Params} {g theta : Nat} {t t' : PerceptronTables} {pc : Pc} {o : Bit}
    (h : PerceptronOk P g t) (e : pTrainStep P g theta t pc o = some t') : PerceptronOk P g t' := by
  rcases pTrainStep_cases P g theta t pc o with ⟨-, e'⟩ | ⟨-, hr, e'⟩ | ⟨-, -, e'⟩
  · obtain rfl := Option.some.inj (e.symm.trans e')
    exact ⟨hrShift_lt _ _ _, h.2⟩
  · obtain rfl := Option.some.inj (e.symm.trans e')
    exact ⟨hrShift_lt _ _ _, Table.canonical_write _ _ h.2.1, Table.inRange_write _ h.2.2.1 (pIndex_lt P g t pc),
      Table.forall_write (p := WeightsOk P.wBits g) _ h.2.2.2 (weightsOk_newWeights (weightsOk_pEntry h _) hr)⟩
  · exact absurd (e.symm.trans e') (by simp)

theorem perceptronOk_init (P : Params) (g : Nat) : PerceptronOk P g pInit :=
  ⟨Nat.two_pow_pos g, by simp [pInit, WeightTableOk, Table.Canonical, Table.InRange]⟩

/-- With unbounded weights no update is out of range (R189). -/
theorem pTrainStep_unbounded {P : Params} (h : P.wBits = none) (g theta : Nat) (t : PerceptronTables) (pc : Pc)
    (o : Bit) : ∃ t', pTrainStep P g theta t pc o = some t' := by
  rcases pTrainStep_cases P g theta t pc o with ⟨-, e⟩ | ⟨-, -, e⟩ | ⟨-, hr, -⟩
  · exact ⟨_, e⟩
  · exact ⟨_, e⟩
  · simp [h, weightInRange] at hr

end Sys2Proof.Machine
end

