-- ==== Sys2Proof/Laws/State.lean ====
section
/-! SUPPORT. What each shared update of the state does to each field, and the two ends of an error (R267). -/

namespace Sys2Proof.Machine

@[simp] theorem deliver_block (r : Byte) (s : State) : (deliver r s).block = s.block := rfl
@[simp] theorem deliver_inputs (r : Byte) (s : State) : (deliver r s).inputs = s.inputs := rfl
@[simp] theorem deliver_responses (r : Byte) (s : State) : (deliver r s).responses = r :: s.responses := rfl

@[simp] theorem respond_block (p : Bit) (st : Status) (s : State) : (respond p st s).block = s.block := rfl
@[simp] theorem respond_inputs (p : Bit) (st : Status) (s : State) : (respond p st s).inputs = s.inputs := rfl
@[simp] theorem respond_responses (p : Bit) (st : Status) (s : State) :
    (respond p st s).responses = responseWord st p :: s.responses := rfl

@[simp] theorem raise_block (st : Status) (s : State) : (raise st s).block = statusEffect st s.block := rfl
@[simp] theorem raise_inputs (st : Status) (s : State) : (raise st s).inputs = s.inputs := rfl
@[simp] theorem raise_responses (st : Status) (s : State) :
    (raise st s).responses = responseWord st false :: s.responses := rfl

@[simp] theorem resetBlock_block (s : State) : (resetBlock s).block = .unconfigured := rfl
@[simp] theorem resetBlock_inputs (s : State) : (resetBlock s).inputs = s.inputs := rfl
@[simp] theorem resetBlock_responses (s : State) : (resetBlock s).responses = s.responses := rfl

@[simp] theorem sendNext_block (h : HostInput) (s : State) : (sendNext h s).block = s.block := rfl
@[simp] theorem sendNext_inputs (h : HostInput) (s : State) : (sendNext h s).inputs = h :: s.inputs := rfl
@[simp] theorem sendNext_responses (h : HostInput) (s : State) : (sendNext h s).responses = s.responses := rfl

@[simp] theorem idle_eq (s : State) : idle s = s := rfl

@[simp] theorem reset_block : State.reset.block = .unconfigured := rfl
@[simp] theorem reset_inputs : State.reset.inputs = [] := rfl
@[simp] theorem reset_responses : State.reset.responses = [] := rfl

/-- The whole of `respond` as one update. -/
theorem respond_eq (p : Bit) (st : Status) (s : State) :
    respond p st s = { s with responses := responseWord st p :: s.responses } := rfl

/-- The whole of `raise` as one update: one state change, one response (R267). -/
theorem raise_eq (st : Status) (s : State) :
    raise st s
      = { s with block := statusEffect st s.block, responses := responseWord st false :: s.responses } := rfl

/-- Taking an input that has been sent. -/
theorem takeInput_of_cons {s : State} {h : HostInput} {rest : List HostInput} (e : s.inputs = h :: rest) :
    takeInput s = some (h, { s with inputs := rest }) := by
  simp [takeInput, e]

/-- Nothing sent, nothing taken. -/
theorem takeInput_of_nil {s : State} (e : s.inputs = []) : takeInput s = none := by
  simp [takeInput, e]

/-- What is sent next is taken next, and leaves the rest of the machine as it was. -/
theorem takeInput_sendNext (h : HostInput) (s : State) : takeInput (sendNext h s) = some (h, s) := rfl

end Sys2Proof.Machine
end

