-- ==== Sys2Proof/Laws/Commands.lean ====
section
/-! SUPPORT. What each command and each step can do, said once (44_facade.md R221–R228). -/

namespace Sys2Proof.Machine

/-- PREDICT on each mode (R227). -/
theorem predictCmd_unconfigured {P : Params} {s : State} (pc : Pc) (h : s.block = .unconfigured) :
    predictCmd P pc s = raise .notConfigured s := by simp [predictCmd, h]

theorem predictCmd_faulted {P : Params} {s : State} (pc : Pc) (h : s.block = .faulted) :
    predictCmd P pc s = raise .faulted s := by simp [predictCmd, h]

theorem predictCmd_configured {P : Params} {s : State} {r : Run} (pc : Pc) (h : s.block = .configured r) :
    predictCmd P pc s = respond (runPredict P r pc) .ok s := by simp [predictCmd, h]

/-- TRAIN on each mode (R228). -/
theorem trainCmd_unconfigured {P : Params} {s : State} (pc : Pc) (o : Bit) (h : s.block = .unconfigured) :
    trainCmd P pc o s = raise .notConfigured s := by simp [trainCmd, h]

theorem trainCmd_faulted {P : Params} {s : State} (pc : Pc) (o : Bit) (h : s.block = .faulted) :
    trainCmd P pc o s = raise .faulted s := by simp [trainCmd, h]

theorem trainCmd_some {P : Params} {s : State} {r r' : Run} {pc : Pc} {o : Bit} (h : s.block = .configured r)
    (e : runTrain P r pc o = some r') :
    trainCmd P pc o s = respond false .ok { s with block := .configured r' } := by simp [trainCmd, h, e]

theorem trainCmd_none {P : Params} {s : State} {r : Run} {pc : Pc} {o : Bit} (h : s.block = .configured r)
    (e : runTrain P r pc o = none) : trainCmd P pc o s = raise .weightRange s := by simp [trainCmd, h, e]

/-- Only a perceptron's training can fail. -/
theorem runTrain_none {P : Params} {r : Run} {pc : Pc} {o : Bit} (e : runTrain P r pc o = none) :
    ∃ g theta t, r = .perceptron g theta t ∧ pTrainStep P g.toNat theta t pc o = none := by
  cases r with
  | perceptron g theta t => exact ⟨g, theta, t, rfl, by simpa [runTrain] using e⟩
  | _ => simp [runTrain] at e

/-- CONFIGURE, valid or not (R223). -/
theorem configureCmd_valid {P : Params} {kind : BitVec 4} {g l p : BitVec 8} (s : State)
    (h : cfgValid P kind g l p = true) :
    configureCmd P kind g l p s = respond false .ok { s with block := configuredBlock P kind g l p } := by
  simp [configureCmd, h]

theorem configureCmd_invalid {P : Params} {kind : BitVec 4} {g l p : BitVec 8} (s : State)
    (h : cfgValid P kind g l p = false) : configureCmd P kind g l p s = raise .cfgErr s := by
  simp [configureCmd, h]

/-- Every command ends in a next state: it writes the block and delivers one response, and both depend on the block
alone. -/
theorem exec_cases (i : Instr) (b : Block) : ∃ (b' : Block) (r : Byte), ∀ s : State, s.block = b →
    exec i s = .next { s with block := b', responses := r :: s.responses } := by
  cases i with
  | nop => exact ⟨b, _, fun s h => by subst h; rfl⟩
  | configure kind g l p =>
    cases h : cfgValid blockParams kind g l p
    · exact ⟨.unconfigured, _, fun s _ => by simp only [exec, execConfigure, configureCmd_invalid s h]; rfl⟩
    · exact ⟨configuredBlock blockParams kind g l p, _,
        fun s _ => by simp only [exec, execConfigure, configureCmd_valid s h]; rfl⟩
  | predict pc =>
    cases b with
    | unconfigured =>
      exact ⟨.unconfigured, _, fun s h => by
        simp only [exec, execPredict, predictCmd_unconfigured pc h, raise_eq, statusEffect, h]; rfl⟩
    | faulted =>
      exact ⟨.faulted, _, fun s h => by
        simp only [exec, execPredict, predictCmd_faulted pc h, raise_eq, statusEffect, h]; rfl⟩
    | configured r =>
      exact ⟨.configured r, responseWord .ok (runPredict blockParams r pc), fun s h => by
        simp only [exec, execPredict, predictCmd_configured pc h, respond_eq, ← h]⟩
  | train pc o =>
    cases b with
    | unconfigured =>
      exact ⟨.unconfigured, _, fun s h => by
        simp only [exec, execTrain, trainCmd_unconfigured pc o h, raise_eq, statusEffect, h]; rfl⟩
    | faulted =>
      exact ⟨.faulted, _, fun s h => by
        simp only [exec, execTrain, trainCmd_faulted pc o h, raise_eq, statusEffect, h]; rfl⟩
    | configured r =>
      cases e : runTrain blockParams r pc o with
      | none =>
        exact ⟨.faulted, _, fun s h => by
          simp only [exec, execTrain, trainCmd_none h e, raise_eq, statusEffect]; rfl⟩
      | some r' =>
        exact ⟨.configured r', _, fun s h => by
          simp only [exec, execTrain, trainCmd_some h e, respond_eq]; rfl⟩

/-- The step on a word that decodes (R221). -/
theorem step_instr {s : State} {c : Word} {rest : List HostInput} {i : Instr} (e : s.inputs = .command c :: rest)
    (h : decode c = .instr i) : step s = exec i { s with inputs := rest } := by
  simp [step, takeInput_of_cons e, h]

/-- The step on an illegal word (R261). -/
theorem step_illegal {s : State} {c : Word} {rest : List HostInput} {cause : IllegalCause}
    (e : s.inputs = .command c :: rest) (h : decode c = .illegal cause) :
    step s = .next (illegalCmd { s with inputs := rest }) := by
  simp [step, takeInput_of_cons e, h]

/-- The step on the reset input (R290). -/
theorem step_reset {s : State} {rest : List HostInput} (e : s.inputs = .reset :: rest) :
    step s = .next (resetBlock { s with inputs := rest }) := by
  simp [step, takeInput_of_cons e]

/-- The step with nothing sent (R277). -/
theorem step_idle {s : State} (e : s.inputs = []) : step s = .next s := by
  simp [step, takeInput_of_nil e]

/-- Every step on an input ends in a next state that has taken it: the block after it and the new responses depend on
the input and the block alone. -/
theorem step_cases (h : HostInput) (b : Block) : ∃ (b' : Block) (rs : List Byte),
    ∀ (s : State) (rest : List HostInput), s.inputs = h :: rest → s.block = b →
      step s = .next { block := b', inputs := rest, responses := rs ++ s.responses } := by
  cases h with
  | reset => exact ⟨.unconfigured, [], fun s rest e _ => by rw [step_reset e]; rfl⟩
  | command c =>
    cases d : decode c with
    | illegal cause =>
      exact ⟨b, [responseWord .illegalCmd false], fun s rest e hb => by rw [step_illegal e d, ← hb]; rfl⟩
    | instr i =>
      obtain ⟨b', r, he⟩ := exec_cases i b
      exact ⟨b', [r], fun s rest e hb => by rw [step_instr e d]; exact he _ hb⟩

/-- Every step ends in a next state (R57). -/
theorem step_total (s : State) : ∃ t, step s = .next t := by
  cases e : s.inputs with
  | nil => exact ⟨s, step_idle e⟩
  | cons h rest =>
    obtain ⟨b', rs, he⟩ := step_cases h s.block
    exact ⟨_, he s rest e rfl⟩

end Sys2Proof.Machine
end

