-- ==== Sys2Proof/Laws/Words.lean ====
section
/-! SUPPORT. The fields of a command word as numbers (30_encoding.md R72–R75), the words of the encoder as numbers
(R87), and what the decoder can answer, said once (R86). -/

namespace Sys2Proof

/-! ### Fields as numbers -/

theorem toNat_opField (c : Word) : (opField c).toNat = c.toNat % 2 ^ 4 := by simp [opField]

theorem toNat_kindField (c : Word) : (kindField c).toNat = c.toNat / 2 ^ 4 % 2 ^ 4 := by
  simp [kindField, Nat.shiftRight_eq_div_pow]

theorem toNat_gField (c : Word) : (gField c).toNat = c.toNat / 2 ^ 8 % 2 ^ 8 := by
  simp [gField, Nat.shiftRight_eq_div_pow]

theorem toNat_lField (c : Word) : (lField c).toNat = c.toNat / 2 ^ 16 % 2 ^ 8 := by
  simp [lField, Nat.shiftRight_eq_div_pow]

theorem toNat_pField (c : Word) : (pField c).toNat = c.toNat / 2 ^ 24 % 2 ^ 8 := by
  simp [pField, Nat.shiftRight_eq_div_pow]

theorem toNat_pcField (c : Word) : (pcField c).toNat = c.toNat / 2 ^ 32 := by
  have := c.isLt
  simp only [pcField, BitVec.extractLsb'_toNat, Nat.shiftRight_eq_div_pow]
  omega

theorem toNat_outcomeField (c : Word) : (outcomeField c).toNat = c.toNat / 2 ^ 4 % 2 := by
  simp only [outcomeField, BitVec.getLsbD, Nat.testBit_eq_decide_div_mod_eq]
  have : c.toNat / 2 ^ 4 % 2 < 2 := Nat.mod_lt _ (by decide)
  by_cases q : c.toNat / 2 ^ 4 % 2 = 1
  · simp only [q, decide_true, Bool.toNat_true]
  · simp only [q, decide_false, Bool.toNat_false]; omega

theorem toNat_reservedN (c : Word) : (reservedN c).toNat = c.toNat / 2 ^ 4 := by
  have := c.isLt
  simp only [reservedN, BitVec.extractLsb'_toNat, Nat.shiftRight_eq_div_pow]
  omega

theorem toNat_reservedC (c : Word) : (reservedC c).toNat = c.toNat / 2 ^ 32 := by
  have := c.isLt
  simp only [reservedC, BitVec.extractLsb'_toNat, Nat.shiftRight_eq_div_pow]
  omega

theorem toNat_reservedP (c : Word) : (reservedP c).toNat = c.toNat / 2 ^ 4 % 2 ^ 28 := by
  simp [reservedP, Nat.shiftRight_eq_div_pow]

theorem toNat_reservedT (c : Word) : (reservedT c).toNat = c.toNat / 2 ^ 5 % 2 ^ 27 := by
  simp [reservedT, Nat.shiftRight_eq_div_pow]

/-! ### The encoder as arithmetic -/

/-- Or-ing a number into the free low bits of a multiple of `2^k` adds it. -/
theorem mul_two_pow_or {k b : Nat} (a : Nat) (h : b < 2 ^ k) : (a * 2 ^ k) ||| b = a * 2 ^ k + b := by
  rw [← Nat.shiftLeft_eq, Nat.shiftLeft_add_eq_or_of_lt h]

/-- `enc_CONFIGURE` as a number (R87). -/
theorem toNat_encConfigure (kind : BitVec 4) (g l p : BitVec 8) :
    (encConfigure kind g l p).toNat
      = p.toNat * 2 ^ 24 + l.toNat * 2 ^ 16 + g.toNat * 2 ^ 8 + kind.toNat * 2 ^ 4 + 1 := by
  have hk := kind.isLt
  have hg := g.isLt
  have hl := l.isLt
  have hp := p.isLt
  have e : (encConfigure kind g l p).toNat
      = p.toNat * 2 ^ 24 ||| l.toNat * 2 ^ 16 ||| g.toNat * 2 ^ 8 ||| kind.toNat * 2 ^ 4 ||| 1 := by
    simp only [encConfigure, BitVec.toNat_or, BitVec.toNat_shiftLeft, BitVec.toNat_setWidth, Nat.shiftLeft_eq]
    congr 1
    · congr 1
      · congr 1
        · congr 1 <;> omega
        · omega
      · omega
  have e1 := mul_two_pow_or (k := 24) (b := l.toNat * 2 ^ 16) p.toNat (by omega)
  have e2 := mul_two_pow_or (k := 16) (b := g.toNat * 2 ^ 8) (p.toNat * 2 ^ 8 + l.toNat) (by omega)
  have e3 := mul_two_pow_or (k := 8) (b := kind.toNat * 2 ^ 4)
    (p.toNat * 2 ^ 16 + l.toNat * 2 ^ 8 + g.toNat) (by omega)
  have e4 := mul_two_pow_or (k := 4) (b := 1)
    (p.toNat * 2 ^ 20 + l.toNat * 2 ^ 12 + g.toNat * 2 ^ 4 + kind.toNat) (by omega)
  rw [e, e1, show p.toNat * 2 ^ 24 + l.toNat * 2 ^ 16 = (p.toNat * 2 ^ 8 + l.toNat) * 2 ^ 16 by omega, e2,
    show (p.toNat * 2 ^ 8 + l.toNat) * 2 ^ 16 + g.toNat * 2 ^ 8
      = (p.toNat * 2 ^ 16 + l.toNat * 2 ^ 8 + g.toNat) * 2 ^ 8 by omega, e3,
    show (p.toNat * 2 ^ 16 + l.toNat * 2 ^ 8 + g.toNat) * 2 ^ 8 + kind.toNat * 2 ^ 4
      = (p.toNat * 2 ^ 20 + l.toNat * 2 ^ 12 + g.toNat * 2 ^ 4 + kind.toNat) * 2 ^ 4 by omega, e4]

/-- `enc_PREDICT` as a number (R87). -/
theorem toNat_encPredict (pc : Pc) : (encPredict pc).toNat = pc.toNat * 2 ^ 32 + 2 := by
  have hp := pc.isLt
  have e : (encPredict pc).toNat = pc.toNat * 2 ^ 32 ||| 2 := by
    simp only [encPredict, BitVec.toNat_or, BitVec.toNat_shiftLeft, BitVec.toNat_setWidth, Nat.shiftLeft_eq]
    congr 1
    omega
  rw [e, mul_two_pow_or _ (by decide)]

/-- `enc_TRAIN` as a number (R87). -/
theorem toNat_encTrain (pc : Pc) (o : Bit) : (encTrain pc o).toNat = pc.toNat * 2 ^ 32 + o.toNat * 2 ^ 4 + 3 := by
  have hp := pc.isLt
  have ho := Bool.toNat_lt o
  have e : (encTrain pc o).toNat = pc.toNat * 2 ^ 32 ||| o.toNat * 2 ^ 4 ||| 3 := by
    simp only [encTrain, BitVec.toNat_or, BitVec.toNat_shiftLeft, BitVec.toNat_setWidth, Nat.shiftLeft_eq,
      BitVec.toNat_ofBool]
    congr 1
    congr 1 <;> omega
  have e1 := mul_two_pow_or (k := 32) (b := o.toNat * 2 ^ 4) pc.toNat (by omega)
  have e2 := mul_two_pow_or (k := 4) (b := 3) (pc.toNat * 2 ^ 28 + o.toNat) (by decide)
  rw [e, e1, show pc.toNat * 2 ^ 32 + o.toNat * 2 ^ 4 = (pc.toNat * 2 ^ 28 + o.toNat) * 2 ^ 4 by omega, e2]

/-! ### The fields of the encoder's words -/

theorem opField_encConfigure (kind : BitVec 4) (g l p : BitVec 8) :
    opField (encConfigure kind g l p) = 0x1#4 := by
  apply BitVec.eq_of_toNat_eq
  rw [toNat_opField, toNat_encConfigure]
  show _ = 1
  omega

theorem reservedC_encConfigure (kind : BitVec 4) (g l p : BitVec 8) :
    reservedC (encConfigure kind g l p) = 0#32 := by
  apply BitVec.eq_of_toNat_eq
  rw [toNat_reservedC, toNat_encConfigure]
  have := kind.isLt
  have := g.isLt
  have := l.isLt
  have := p.isLt
  show _ = 0
  omega

theorem kindField_encConfigure (kind : BitVec 4) (g l p : BitVec 8) :
    kindField (encConfigure kind g l p) = kind := by
  apply BitVec.eq_of_toNat_eq
  rw [toNat_kindField, toNat_encConfigure]
  have := kind.isLt
  have := g.isLt
  have := l.isLt
  have := p.isLt
  omega

theorem gField_encConfigure (kind : BitVec 4) (g l p : BitVec 8) :
    gField (encConfigure kind g l p) = g := by
  apply BitVec.eq_of_toNat_eq
  rw [toNat_gField, toNat_encConfigure]
  have := kind.isLt
  have := g.isLt
  have := l.isLt
  have := p.isLt
  omega

theorem lField_encConfigure (kind : BitVec 4) (g l p : BitVec 8) :
    lField (encConfigure kind g l p) = l := by
  apply BitVec.eq_of_toNat_eq
  rw [toNat_lField, toNat_encConfigure]
  have := kind.isLt
  have := g.isLt
  have := l.isLt
  have := p.isLt
  omega

theorem pField_encConfigure (kind : BitVec 4) (g l p : BitVec 8) :
    pField (encConfigure kind g l p) = p := by
  apply BitVec.eq_of_toNat_eq
  rw [toNat_pField, toNat_encConfigure]
  have := kind.isLt
  have := g.isLt
  have := l.isLt
  have := p.isLt
  omega

theorem opField_encPredict (pc : Pc) :
    opField (encPredict pc) = 0x2#4 := by
  apply BitVec.eq_of_toNat_eq
  rw [toNat_opField, toNat_encPredict]
  show _ = 2
  omega

theorem reservedP_encPredict (pc : Pc) :
    reservedP (encPredict pc) = 0#28 := by
  apply BitVec.eq_of_toNat_eq
  rw [toNat_reservedP, toNat_encPredict]
  show _ = 0
  omega

theorem pcField_encPredict (pc : Pc) :
    pcField (encPredict pc) = pc := by
  apply BitVec.eq_of_toNat_eq
  rw [toNat_pcField, toNat_encPredict]
  omega

theorem opField_encTrain (pc : Pc) (o : Bit) :
    opField (encTrain pc o) = 0x3#4 := by
  apply BitVec.eq_of_toNat_eq
  rw [toNat_opField, toNat_encTrain]
  have := Bool.toNat_lt o
  show _ = 3
  omega

theorem reservedT_encTrain (pc : Pc) (o : Bit) :
    reservedT (encTrain pc o) = 0#27 := by
  apply BitVec.eq_of_toNat_eq
  rw [toNat_reservedT, toNat_encTrain]
  have := Bool.toNat_lt o
  show _ = 0
  omega

theorem pcField_encTrain (pc : Pc) (o : Bit) :
    pcField (encTrain pc o) = pc := by
  apply BitVec.eq_of_toNat_eq
  rw [toNat_pcField, toNat_encTrain]
  have := Bool.toNat_lt o
  omega

theorem outcomeField_encTrain (pc : Pc) (o : Bit) : outcomeField (encTrain pc o) = o := by
  simp [outcomeField, encTrain]

/-! ### The decoder's answers -/

/-- What the decoder can answer, with the fields that say which (R86). -/
theorem decode_cases (c : Word) :
    (decode c = .instr .nop ∧ opField c = 0x0#4 ∧ reservedN c = 0#60) ∨
    (decode c = .instr (.configure (kindField c) (gField c) (lField c) (pField c)) ∧
      opField c = 0x1#4 ∧ reservedC c = 0#32) ∨
    (decode c = .instr (.predict (pcField c)) ∧ opField c = 0x2#4 ∧ reservedP c = 0#28) ∨
    (decode c = .instr (.train (pcField c) (outcomeField c)) ∧ opField c = 0x3#4 ∧ reservedT c = 0#27) ∨
    (decode c = .illegal .reservedBits ∧
      ((opField c = 0x0#4 ∧ reservedN c ≠ 0#60) ∨ (opField c = 0x1#4 ∧ reservedC c ≠ 0#32) ∨
        (opField c = 0x2#4 ∧ reservedP c ≠ 0#28) ∨ (opField c = 0x3#4 ∧ reservedT c ≠ 0#27))) ∨
    (decode c = .illegal .reservedOpcode ∧
      opField c ≠ 0x0#4 ∧ opField c ≠ 0x1#4 ∧ opField c ≠ 0x2#4 ∧ opField c ≠ 0x3#4) := by
  unfold decode
  by_cases h0 : opField c = 0x0#4
  · by_cases r : reservedN c = 0#60 <;> simp [h0, r]
  by_cases h1 : opField c = 0x1#4
  · by_cases r : reservedC c = 0#32 <;> simp [h1, r]
  by_cases h2 : opField c = 0x2#4
  · by_cases r : reservedP c = 0#28 <;> simp [h2, r]
  by_cases h3 : opField c = 0x3#4
  · by_cases r : reservedT c = 0#27 <;> simp [h3, r]
  simp [h0, h1, h2, h3]

end Sys2Proof
end

