-- ==== Sys2Proof/Laws/PerInstr.lean ====
section
/-! SUPPORT. The per-command family EncodesToItsRow: the word of a command has the match of the command's row of
spec/opcode_table.json under the row's mask (30_encoding.md R86, R87). -/

namespace Sys2Proof.Laws.EncodesToItsRow

/-- The statement about one command. -/
def Statement (i : Instr) : Prop := encode i &&& rowMask i = rowMatch i

theorem nop : Statement .nop := by
  unfold Statement
  decide

theorem configure (kind : BitVec 4) (g l p : BitVec 8) : Statement (.configure kind g l p) := by
  unfold Statement
  apply BitVec.eq_of_getLsbD_eq
  intro i hi
  interval_cases i <;> simp [encode, encConfigure, rowMask, rowMatch]

theorem predict (pc : Pc) : Statement (.predict pc) := by
  unfold Statement
  apply BitVec.eq_of_getLsbD_eq
  intro i hi
  interval_cases i <;> simp [encode, encPredict, rowMask, rowMatch]

theorem train (pc : Pc) (o : Bit) : Statement (.train pc o) := by
  unfold Statement
  apply BitVec.eq_of_getLsbD_eq
  intro i hi
  interval_cases i <;> simp [encode, encTrain, rowMask, rowMatch]

end Sys2Proof.Laws.EncodesToItsRow
end

