-- ==== Sys2Proof/Laws/Run.lean ====
section
/-! SUPPORT. Running the machine one step at a time, and the induction over a run, said once. -/

namespace Sys2Proof.Machine

/-- A run whose first step ends in a next state goes on from there. -/
theorem core_run_next (M : Host.Core) (n : Nat) (s t : M.State) (h : M.step s = .next t) :
    M.run (n + 1) s = M.run n t := by
  simp [Host.Core.run, h]

/-- The same for this machine. -/
theorem run_succ {s t : State} (n : Nat) (h : step s = .next t) :
    Host.Core.run Sys2Proof.core (n + 1) s = Host.Core.run Sys2Proof.core n t :=
  core_run_next Sys2Proof.core n s t h

/-- What every step keeps, every run keeps. -/
theorem run_induction {p : State → Prop} (hp : ∀ s t, p s → step s = .next t → p t) (n : Nat) (s : State)
    (h : p s) : ∃ t, Host.Core.run Sys2Proof.core n s = .next t ∧ p t := by
  induction n generalizing s with
  | zero => exact ⟨s, rfl, h⟩
  | succ n ih =>
    obtain ⟨t, ht⟩ := step_total s
    rw [run_succ n ht]
    exact ih t (hp s t h ht)

end Sys2Proof.Machine
end

