-- ==== Sys2Proof/Tests/Slice0.lean ====
section
/-! SUPPORT. Tests. Expected values are those of 95_test_vectors.md (its identifiers stand at each test) or are worked
out by hand from the rule named. The witnesses at the end show, for every statement with hypotheses, a state and
operands that meet all of them together. -/

namespace Sys2Proof.Tests

open Sys2Proof Sys2Proof.Machine

/-! ### Helpers -/

/-- A machine whose block is `b`, with nothing sent and nothing answered. -/
def withBlock (b : Block) : State := { block := b, inputs := [], responses := [] }

/-- The next state of an outcome. -/
def nextOf : Host.Outcome State Fault Refusal → Option State
  | .next s => some s
  | .fault _ => none
  | .refused _ => none

/-- Parameters as the vectors of 95_test_vectors.md take them: maxima 16 and the given `W_BITS`. -/
def vectorParams (wBits : Option Nat) (h : ∀ w, wBits = some w → 1 ≤ w) : Params where
  ctrBits := 2
  gMax := 16
  lMax := 16
  pMax := 16
  percIndex := .xor
  theta := thetaDefault
  wBits := wBits
  ctrBits_pos := by decide
  gMax_legal := by decide
  lMax_legal := by decide
  pMax_legal := by decide
  wBits_pos := h

/-- `W_BITS` = `UNBOUNDED`. -/
def unbounded : Params := vectorParams none (by simp)

/-- `W_BITS` = 2, as in P4. -/
def twoBits : Params := vectorParams (some 2) (by simp)

/-! ### Well-formedness: an operand that does not fit is refused by the check that is there (R83); an `Instr` has no
ill-formed term, since its fields are exactly as wide as the format's -/

theorem test_every_instr_is_well_formed (i : Instr) : i.wellFormed = true := by cases i <;> rfl

theorem test_asm_refuses_what_does_not_fit :
    [AsmLine.configureGshare 256, .configureTournament 1 256 1, .configureTournament 1 1 256,
      .configurePerceptron 256, .configureRaw 16 0 0 0, .configureRaw 1 256 0 0, .predict 4294967296,
      .train 4294967296 true, .branch 4294967296 false, .cmd 18446744073709551616].map asmFits
      = List.replicate 10 false := by decide

/-! ### Decoding: words written out from the formats R72–R75 -/

theorem test_decode_nop : decode 0x0000000000000000#64 = .instr .nop := by decide

/-- TV-F2: `p` = 0xC8, `l` = 0x09, `g` = 0, kind 0. -/
theorem test_decode_configure : decode 0x00000000C8090001#64 = .instr (.configure 0 0 9 200) := by decide

/-- `configure tournament, 2, 3, 4`: p 04, l 03, g 02, kind 2, op 1. -/
theorem test_decode_configure_fields : decode 0x0000000004030221#64 = .instr (.configure 2 2 3 4) := by decide

/-- TV-E8. -/
theorem test_decode_predict : decode 0xFFFFFFFF00000002#64 = .instr (.predict 0xFFFFFFFF#32) := by decide

/-- TV-E9, TV-E10. -/
theorem test_decode_train : decode 0xFFFFFFFF00000013#64 = .instr (.train 0xFFFFFFFF#32 true) ∧
    decode 0x8000000000000003#64 = .instr (.train 0x80000000#32 false) := by decide

/-- TV-E2 to TV-E7. -/
theorem test_decode_illegal :
    [0x10#64, 0x4#64, 0xFFFFFFFFFFFFFFFF#64, 0x0000000100000001#64, 0x0000004000000012#64,
      0x0000004000000023#64].map decode
      = [.illegal .reservedBits, .illegal .reservedOpcode, .illegal .reservedOpcode, .illegal .reservedBits,
         .illegal .reservedBits, .illegal .reservedBits] := by decide

/-- R87's examples. -/
theorem test_encode : encode (.configure 1 2 0 0) = 0x211#64 ∧ encode (.predict 1) = 0x0000000100000002#64 ∧
    encode (.train 1 true) = 0x0000000100000013#64 := by decide

/-- R54: byte 0 of a transfer is bits 7..0. -/
theorem test_transfer : bytesOfWord 0x0000000100000013#64 = [0x13, 0, 0, 0, 1, 0, 0, 0] := by decide

theorem test_table_word : decodeTableWord 64 0x0000000100000013 = some (.train 1 true) ∧
    decodeTableWord 64 0x14 = none := by decide

/-! ### The assembler's text (R83, R84) -/

/-- `Train 0x40, T ; x` -/
theorem test_assemble_line :
    assembleLine ['T', 'r', 'a', 'i', 'n', ' ', '0', 'x', '4', '0', ',', ' ', 'T', ' ', ';', 'x']
      = some [0x0000004000000013#64] := by decide

/-- `branch 0b1, n` is PREDICT then TRAIN. -/
theorem test_assemble_branch :
    assembleLine ['b', 'r', 'a', 'n', 'c', 'h', ' ', '0', 'b', '1', ',', 'n']
      = some [0x0000000100000002#64, 0x0000000100000003#64] := by decide

/-! ### Sizes (R42) and the accumulator (R193) -/

/-- GSHARE with `g` = 3: 3 + 2 * 8; PERCEPTRON with `g` = 2, `W_BITS` = 2: 2 + 2 * 2 * 4; accumulator 2 + 2 + 1. -/
theorem test_storage : storageBits unbounded (.gshare 3 gsInit) = some 19 ∧
    storageBits twoBits (.perceptron 2 17 pInit) = some 18 ∧
    storageBits unbounded (.perceptron 2 17 pInit) = none := by decide

/-! ### One step of each command -/

/-- TV-M6: NOP in FAULTED. -/
theorem test_nop_in_faulted :
    nextOf (exec .nop (withBlock .faulted)) = some { withBlock .faulted with responses := [0x00] } := by decide

/-- TV-F4 and TV-F5: 17 is above `G_MAX` = 16, 16 is not. -/
theorem test_configure_limits : (configureCmd unbounded 1 17 0 0 (withBlock .faulted)).responses = [0x10] ∧
    (configureCmd unbounded 1 16 0 0 (withBlock .faulted)).block = .configured (.gshare 16 ⟨0, []⟩) := by decide

/-- TV-F12: THETA(2) = 17. -/
theorem test_configure_perceptron : (configureCmd unbounded 3 2 0 0 State.reset).block
    = .configured (.perceptron 2 17 ⟨0, []⟩) := by decide

/-- TV-G5 and TV-T6 (after TV-T4). -/
theorem test_predict_counters :
    nextOf (exec (.predict 0) (withBlock (.configured (.gshare 1 ⟨1, [(1, 2)]⟩))))
      = some { withBlock (.configured (.gshare 1 ⟨1, [(1, 2)]⟩)) with responses := [0x01] } ∧
    (predictCmd unbounded 1 (withBlock (.configured (.tournament 2 2 2
      ⟨[(1, 2)], ⟨[(0, 3)], [(1, 2), (3, 2)]⟩, ⟨2, [(0, 2), (1, 2), (2, 0), (3, 2)]⟩⟩)))).responses = [0x01] := by
  decide

/-- TV-P3: `y` = 0 predicts Taken; TV-P9. -/
theorem test_predict_perceptron :
    (predictCmd unbounded 1 (withBlock (.configured (.perceptron 1 15 ⟨1, [(0, [-1])]⟩)))).responses = [0x01] ∧
    pDot unbounded 2 ⟨2, [(0, [-1, -1])]⟩ 2 = 1 := by decide

/-- TV-T4: the meta counter moves one step toward the global predictor, and both sub-predictors train. -/
theorem test_train_tournament :
    (trainCmd unbounded 1 false (withBlock (.configured (.tournament 2 2 2
      ⟨[], ⟨[(0, 3)], [(0, 2), (1, 2), (3, 2)]⟩, ⟨3, [(0, 2), (1, 2), (3, 2)]⟩⟩)))).block
      = .configured (.tournament 2 2 2
          ⟨[(1, 2)], ⟨[(0, 3)], [(1, 2), (3, 2)]⟩, ⟨2, [(0, 2), (1, 2), (2, 0), (3, 2)]⟩⟩) := by decide

/-- TV-P4 (`|y|` = THETA, no update) and TV-P8 (WEIGHT_RANGE). -/
theorem test_train_perceptron :
    (trainCmd unbounded 1 true (withBlock (.configured (.perceptron 1 15 ⟨1, [(0, [14])]⟩)))).block
      = .configured (.perceptron 1 15 ⟨1, [(0, [14])]⟩) ∧
    trainCmd twoBits 0 true (withBlock (.configured (.perceptron 1 15 ⟨1, [(0, [1]), (1, [1])]⟩)))
      = { withBlock .faulted with responses := [0x40] } := by decide

/-- The word the host places is the one the next step runs: `predict 0x40` after reset answers NOT_CONFIGURED. -/
theorem test_step_runs_fetch_word :
    nextOf (step (State.reset.withFetchWord 64 0x0000004000000002))
      = some { withBlock .unconfigured with responses := [0x20] } := by decide

/-! ### Witnesses: a state and operands for the hypotheses of each statement -/

/-- EncodeOfDecodeIsTheWord, and each clause of OperandsAreUnsignedFields. -/
theorem witness_decodes : decode 0x00000000FFFFFFF1#64 = .instr (.configure 15 255 255 255) ∧
    decode 0xFFFFFFFF00000002#64 = .instr (.predict 0xFFFFFFFF#32) ∧
    decode 0xFFFFFFFF00000013#64 = .instr (.train 0xFFFFFFFF#32 true) := by decide

/-- TransferIsLittleEndian's last byte; AssembledLinesDecodeToTheirCommands at the edges of the operands. -/
theorem witness_asm_ranges : (7 < 8) ∧ (4294967295 < 2 ^ 32) ∧ (2 ^ 32 ≤ 4294967296) ∧ (15 < 2 ^ 4) ∧
    (2 ^ 4 ≤ 16) ∧ (255 < 2 ^ 8) ∧ (2 ^ 8 ≤ 256) ∧ (18446744073709551615 < 2 ^ 64) ∧
    (2 ^ 64 ≤ 18446744073709551616) := by decide

/-- CounterReadsItsHighBit, CounterUpdateSaturates, CounterNeverLeavesItsRange: both ends of the range. -/
theorem witness_counter : (1 ≤ 2) ∧ (0 < 2 ^ 2) ∧ (3 < 2 ^ 2) ∧ scUpdate 2 3 true = 3 ∧ scUpdate 2 0 false = 0 := by
  decide

/-- HistoryShiftDropsTheOldestBit at its least width, and at one where a bit is dropped (TV-H4). -/
theorem witness_history : (1 ≤ 1) ∧ hrShift 1 false 1 = 0 ∧ (1 ≤ 3) ∧ hrShift 5 true 3 = 3 := by decide

/-- TableWriteReplacesOneEntry. -/
theorem witness_canonical : Table.Canonical 1 [(0, 2), (3, 0)] := by decide

/-- Width 1 is legal whatever the OPEN maxima are. -/
theorem witness_width_one : widthLegal blockParams.gMax 1 = true ∧ widthLegal blockParams.lMax 1 = true ∧
    widthLegal blockParams.pMax 1 = true :=
  ⟨decide_eq_true ⟨by decide, blockParams.gMax_legal.1⟩, decide_eq_true ⟨by decide, blockParams.lMax_legal.1⟩,
    decide_eq_true ⟨by decide, blockParams.pMax_legal.1⟩⟩

/-- ConfigureBuildsFreshState at both ends of a width: 1, and the maximum itself. -/
theorem witness_configure_valid :
    (1 ≤ (1#8).toNat ∧ (1#8).toNat ≤ blockParams.gMax) ∧ (1 ≤ (1#8).toNat ∧ (1#8).toNat ≤ blockParams.lMax) ∧
    (1 ≤ (1#8).toNat ∧ (1#8).toNat ≤ blockParams.pMax) ∧
    (1 ≤ (BitVec.ofNat 8 blockParams.gMax).toNat ∧ (BitVec.ofNat 8 blockParams.gMax).toNat ≤ blockParams.gMax) := by
  have g := blockParams.gMax_legal
  have l := blockParams.lMax_legal
  have p := blockParams.pMax_legal
  simp only [BitVec.toNat_ofNat]
  omega

/-- ConfigureRejectsInvalid: an unrecognized kind, a width of 0, a width above every maximum, in each clause. -/
theorem witness_configure_invalid : (4 ≤ (4#4).toNat) ∧ (1 ≤ (1#4).toNat ∧ (1#4).toNat ≤ 3 ∧ (0#8).toNat = 0) ∧
    (1 ≤ (3#4).toNat ∧ (3#4).toNat ≤ 3 ∧ blockParams.gMax < (33#8).toNat) ∧
    ((2#4).toNat = 2 ∧ (0#8).toNat = 0) ∧ ((2#4).toNat = 2 ∧ blockParams.lMax < (33#8).toNat) ∧
    ((2#4).toNat = 2 ∧ blockParams.pMax < (33#8).toNat) :=
  ⟨by decide, by decide, ⟨by decide, by decide, Nat.lt_of_le_of_lt blockParams.gMax_legal.2 (by decide)⟩, by decide,
    ⟨by decide, Nat.lt_of_le_of_lt blockParams.lMax_legal.2 (by decide)⟩,
    ⟨by decide, Nat.lt_of_le_of_lt blockParams.pMax_legal.2 (by decide)⟩⟩

/-- UnconfiguredAnswersNotConfigured, FaultedIsSticky (its first clause, and a CONFIGURE that ends FAULTED for its
second), StaticPredictsTakenAndNeverTrains. -/
theorem witness_modes : (withBlock .unconfigured).block = .unconfigured ∧ (withBlock .faulted).block = .faulted ∧
    exec (.configure 0 0 0 0) (withBlock .faulted)
      = .next { withBlock (.configured .static) with responses := [0x00] } ∧
    (withBlock (.configured .static)).block = .configured .static := ⟨rfl, rfl, rfl, rfl⟩

/-- GsharePredict…, GshareTrain…: a good GSHARE state at width 1 with a trained counter. -/
theorem witness_gshare : (withBlock (.configured (.gshare 1 ⟨1, [(1, 2)]⟩))).Inv :=
  ⟨⟨⟨by decide, blockParams.gMax_legal.1⟩, by decide⟩, by simp [withBlock]⟩

/-- TournamentPredict…, TournamentTrainEffect, MetaCounterMoves…: good TOURNAMENT states whose readings differ, with the
meta counter at each end and between. -/
theorem witness_tournament (m : Table Nat) (h : CounterTableOk blockParams.ctrBits (1#6).toNat m) :
    (withBlock (.configured (.tournament 1 1 1 ⟨m, ⟨[], [(0, 2)]⟩, ⟨0, []⟩⟩))).Inv ∧
    localReading blockParams (1#6).toNat ⟨[], [(0, 2)]⟩ 0 ≠ gsReading blockParams (1#6).toNat ⟨0, []⟩ 0 := by
  have hl : LocalOk blockParams (1#6).toNat (1#6).toNat ⟨[], [(0, 2)]⟩ := by decide
  have hg : GshareOk blockParams (1#6).toNat ⟨0, []⟩ := by decide
  exact ⟨⟨⟨⟨by decide, blockParams.gMax_legal.1⟩, ⟨by decide, blockParams.lMax_legal.1⟩,
    ⟨by decide, blockParams.pMax_legal.1⟩, h, hl, hg⟩, by simp [withBlock]⟩, by decide⟩

theorem witness_meta_tables : CounterTableOk blockParams.ctrBits (1#6).toNat [(0, 0)] ∧
    CounterTableOk blockParams.ctrBits (1#6).toNat [] ∧
    CounterTableOk blockParams.ctrBits (1#6).toNat [(0, 3)] := by decide

/-- The last hypotheses of MetaCounterMoves…: the TRAIN ends in a configured TOURNAMENT (either outcome). -/
theorem witness_tournament_train (o : Bit) (s : State) (t : TournamentTables)
    (h : s.block = .configured (.tournament 1 1 1 t)) :
    exec (.train 0 o) s = .next (trainCmd blockParams 0 o s) ∧
    (trainCmd blockParams 0 o s).block
      = .configured (.tournament 1 1 1 (tTrainStep blockParams (1#6).toNat (1#6).toNat (1#6).toNat t 0 o)) := by
  simp [exec, execTrain, trainCmd, h, runTrain, respond, deliver]

/-- PerceptronPredict…, WeightsChangeSelectively (its first clause), PerceptronTrainEffect with no update (TV-P4),
UnboundedRunsNeverFail. -/
theorem witness_perceptron : BlockOk unbounded (.configured (.perceptron 1 15 ⟨1, [(0, [14])]⟩)) ∧
    pPred (pDot unbounded (1#6).toNat ⟨1, [(0, [14])]⟩ 1) = true ∧
    ((15 : Nat) : Int) ≤ |pDot unbounded (1#6).toNat ⟨1, [(0, [14])]⟩ 1| ∧ unbounded.wBits = none :=
  ⟨⟨by decide, by decide, by decide⟩, by decide, by decide, rfl⟩

/-- WeightsChangeSelectively (its second clause), PerceptronTrainEffect with an update in range (TV-P6). -/
theorem witness_perceptron_wrong : BlockOk unbounded (.configured (.perceptron 1 15 ⟨1, [(0, [-16])]⟩)) ∧
    pPred (pDot unbounded (1#6).toNat ⟨1, [(0, [-16])]⟩ 1) ≠ true ∧
    (trainCmd unbounded 1 true (withBlock (.configured (.perceptron 1 15 ⟨1, [(0, [-16])]⟩)))).block
      = .configured (.perceptron 1 15 ⟨1, [(0, [-15])]⟩) :=
  ⟨⟨by decide, by decide, by decide⟩, by decide, by decide⟩

/-- PerceptronTrainEffect where the update overflows, both clauses of WeightRangeFaultsTheBlock (TV-P8), and
DotProductFitsTheAccumulator. -/
theorem witness_overflow : twoBits.wBits = some 2 ∧
    BlockOk twoBits (.configured (.perceptron 1 15 ⟨1, [(0, [1]), (1, [1])]⟩)) ∧
    pNeedUpdate 15 (pDot twoBits (1#6).toNat ⟨1, [(0, [1]), (1, [1])]⟩ 0) true = true ∧
    (2 : Int) ^ (2 - 1) - 1 < weightAt (pEntry (1#6).toNat ⟨1, [(0, [1]), (1, [1])]⟩
      (pIndex twoBits (1#6).toNat ⟨1, [(0, [1]), (1, [1])]⟩ 0)) 0 + bipolar true * bipolar (Nat.testBit 1 0) :=
  ⟨rfl, ⟨by decide, by decide, by decide⟩, by decide, by decide⟩

/-- PerceptronIndexModes: both modes, and a history in its width. -/
theorem witness_index_modes : unbounded.percIndex = .xor ∧
    ({ unbounded with percIndex := .pc } : Params).percIndex = .pc ∧ (1 < 2 ^ 2) := ⟨rfl, rfl, by decide⟩

/-- FreshPredictions, for each kind. -/
theorem witness_fresh : cfgValid blockParams 0 0 0 0 = true ∧ cfgValid blockParams 1 1 0 0 = true ∧
    cfgValid blockParams 2 1 1 1 = true ∧ cfgValid blockParams 3 1 0 0 = true ∧
    ∀ (kind : BitVec 4) (g l p : BitVec 8) (s : State),
      exec (.configure kind g l p) s = .next (configureCmd blockParams kind g l p s) := by
  obtain ⟨a, b, c⟩ := witness_width_one
  exact ⟨by decide, a, Bool.and_eq_true_iff.2 ⟨Bool.and_eq_true_iff.2 ⟨a, b⟩, c⟩, a, fun _ _ _ _ _ => rfl⟩

/-- StepRunsTheDecodedCommand, StatusPriority, and each clause of StepOnOtherInputs. -/
theorem witness_inputs : (State.reset.withFetchWord 64 0).inputs = [.command 0#64] ∧
    (State.reset.withFetchWord 64 4).inputs = [.command 4#64] ∧ decode 4#64 = .illegal .reservedOpcode ∧
    (sendNext .reset State.reset).inputs = [.reset] ∧ State.reset.inputs = [] := by decide

/-- OnlyTheseEventsChangeMode: a step that changes MODE. -/
theorem witness_mode_change : step (sendNext (.command 1#64) State.reset)
      = .next { withBlock (.configured .static) with responses := [0x00] } ∧
    modeOf (.configured .static) ≠ modeOf State.reset.block := ⟨rfl, by decide⟩

/-- ErrorsAreAtomic: a response that is not OK, for each of the two state changes and for none. -/
theorem witness_error_status : statusField 0x10 = 1#4 ∧ statusField 0x40 = 4#4 ∧ statusField 0x20 ≠ 0#4 := by decide

/-- AliasedAddressesAreIndistinguishable: two pcs with equal low bits, at the least width and at 31 bits. -/
theorem witness_alias : (0x1 : Pc).toNat % 2 ^ (1#6).toNat = (0x3 : Pc).toNat % 2 ^ (1#6).toNat ∧
    (0x7FFFFFFF : Pc).toNat % 2 ^ (31#6).toNat = (0xFFFFFFFF : Pc).toNat % 2 ^ (31#6).toNat := by decide

/-- EveryStepKeepsTheInvariant: a good state and a step from it. -/
theorem witness_invariant_step : State.reset.Inv ∧ step State.reset = .next State.reset :=
  ⟨⟨trivial, by simp [State.reset]⟩, rfl⟩

/-- ReplayAfterConfigureIsDeterministic: two different states with the same inputs. -/
theorem witness_replay :
    (sendNext (.command (encode (.configure 1 1 0 0))) (withBlock .faulted)).inputs
      = .command (encode (.configure 1 1 0 0)) :: [] ∧
    (sendNext (.command (encode (.configure 1 1 0 0))) State.reset).inputs
      = (sendNext (.command (encode (.configure 1 1 0 0))) (withBlock .faulted)).inputs := ⟨rfl, rfl⟩

/-- TrainMeetsTheBlockItsPredictMet: PREDICT, NOP, TRAIN of one pc keep the protocol. -/
theorem witness_protocol :
    followsProtocol none [.command 0x0000000100000002#64, .command 0#64, .command 0x0000000100000013#64] = true ∧
    decode 0x0000000100000002#64 = .instr (.predict 1) ∧ decode 0x0000000100000013#64 = .instr (.train 1 true) ∧
    ∀ h ∈ [HostInput.command 0#64], ∀ c q b, h = .command c → decode c ≠ .instr (.train q b) := by
  refine ⟨by decide, by decide, by decide, ?_⟩
  rintro h hm c q b rfl
  have e : c = 0#64 := by simpa using hm
  rw [e, show decode 0#64 = .instr .nop by decide]
  simp

/-- FailedConfigureLeavesUnconfiguredUntilOneSucceeds: a failed CONFIGURE, then a PREDICT. -/
theorem witness_failed_configure : cfgValid blockParams 4 0 0 0 = false ∧
    ∀ h ∈ [HostInput.command 0x0000000100000002#64], ∀ c k a b d, h = .command c →
      decode c = .instr (.configure k a b d) → cfgValid blockParams k a b d = false := by
  refine ⟨by decide, ?_⟩
  rintro h hm c k a b d rfl hd
  have e : c = 0x0000000100000002#64 := by simpa using hm
  rw [e, show decode 0x0000000100000002#64 = .instr (.predict 1) by decide] at hd
  exact absurd hd (by simp)

end Sys2Proof.Tests
end

/-! ## Proofs of the state family (10_state.md)

The statements about MODE, KIND and the state as a whole: what a step can do and what it keeps. -/

namespace Sys2Proof.Machine

/-! ### What a step, a PREDICT and a TRAIN can do, each said once -/

/-- What a step that ends in `t` has done (R221, R277, R290). -/
theorem step_next_cases {s t : State} (h : step s = .next t) :
    (s.inputs = [] ∧ t = s) ∨
    (∃ rest, s.inputs = .reset :: rest ∧ t = resetBlock { s with inputs := rest }) ∨
    (∃ c rest cause, s.inputs = .command c :: rest ∧ decode c = .illegal cause ∧
      t = illegalCmd { s with inputs := rest }) ∨
    (∃ c rest i, s.inputs = .command c :: rest ∧ decode c = .instr i ∧
      exec i { s with inputs := rest } = .next t) := by
  cases e : s.inputs with
  | nil => exact .inl ⟨rfl, Host.Outcome.next.inj (h.symm.trans (step_idle e))⟩
  | cons hd rest =>
    cases hd with
    | reset => exact .inr (.inl ⟨rest, rfl, Host.Outcome.next.inj (h.symm.trans (step_reset e))⟩)
    | command c =>
      cases d : decode c with
      | illegal cause =>
        exact .inr (.inr (.inl ⟨c, rest, cause, rfl, d, Host.Outcome.next.inj (h.symm.trans (step_illegal e d))⟩))
      | instr i => exact .inr (.inr (.inr ⟨c, rest, i, rfl, d, (step_instr e d).symm.trans h⟩))

/-- A PREDICT only answers, in every mode, and predicts Taken only with OK (R227, R231). -/
theorem predictCmd_eq_respond (P : Params) (pc : Pc) (s : State) :
    ∃ (pred : Bit) (st : Status), (pred = true → st = .ok) ∧ predictCmd P pc s = respond pred st s := by
  cases h : s.block with
  | unconfigured => exact ⟨false, .notConfigured, nofun, predictCmd_unconfigured pc h⟩
  | configured r => exact ⟨runPredict P r pc, .ok, fun _ => rfl, predictCmd_configured pc h⟩
  | faulted => exact ⟨false, .faulted, nofun, predictCmd_faulted pc h⟩

@[simp] theorem predictCmd_block (P : Params) (pc : Pc) (s : State) : (predictCmd P pc s).block = s.block := by
  obtain ⟨pred, st, -, e⟩ := predictCmd_eq_respond P pc s
  rw [e, respond_block]

@[simp] theorem predictCmd_inputs (P : Params) (pc : Pc) (s : State) : (predictCmd P pc s).inputs = s.inputs := by
  obtain ⟨pred, st, -, e⟩ := predictCmd_eq_respond P pc s
  rw [e, respond_inputs]

/-- A failing perceptron update means that `W_BITS` is finite (R189). -/
theorem wBits_ne_none_of_pTrainStep {P : Params} {g theta : Nat} {t : PerceptronTables} {pc : Pc} {o : Bit}
    (e : pTrainStep P g theta t pc o = none) : P.wBits ≠ none := fun hb => by
  obtain ⟨t', e'⟩ := pTrainStep_unbounded hb g theta t pc o
  exact absurd (e.symm.trans e') nofun

/-- What a TRAIN can do (R228, R264). -/
theorem trainCmd_cases (P : Params) (pc : Pc) (o : Bit) (s : State) :
    (s.block = .unconfigured ∧ trainCmd P pc o s = raise .notConfigured s) ∨
    (s.block = .faulted ∧ trainCmd P pc o s = raise .faulted s) ∨
    (∃ r r', s.block = .configured r ∧ runTrain P r pc o = some r' ∧
      trainCmd P pc o s = respond false .ok { s with block := .configured r' }) ∨
    (∃ g theta t, s.block = .configured (.perceptron g theta t) ∧ P.wBits ≠ none ∧
      trainCmd P pc o s = raise .weightRange s) := by
  cases h : s.block with
  | unconfigured => exact .inl ⟨rfl, trainCmd_unconfigured pc o h⟩
  | faulted => exact .inr (.inl ⟨rfl, trainCmd_faulted pc o h⟩)
  | configured r =>
    cases e : runTrain P r pc o with
    | some r' => exact .inr (.inr (.inl ⟨r, r', rfl, e, trainCmd_some h e⟩))
    | none =>
      obtain ⟨g, theta, t, rfl, ep⟩ := runTrain_none e
      exact .inr (.inr (.inr ⟨g, theta, t, rfl, wBits_ne_none_of_pTrainStep ep, trainCmd_none h e⟩))

/-! ### The invariant -/

/-- A legal width field fits the 6-bit register it is loaded into (R82, R23): the maxima are at most 32. -/
theorem widthOk_widthOfField {max : Nat} {f : BitVec 8} (hmax : max ≤ 32) (h : widthLegal max f = true) :
    WidthOk max (widthOfField f) := by
  have hf : 1 ≤ f.toNat ∧ f.toNat ≤ max := by simpa [widthLegal] using h
  have e : (widthOfField f).toNat = f.toNat := by
    rw [widthOfField, BitVec.toNat_setWidth]
    exact Nat.mod_eq_of_lt (by omega)
  rwa [WidthOk, e]

/-- A valid CONFIGURE builds a good block (R224, R225). -/
theorem blockOk_configuredBlock {P : Params} {kind : BitVec 4} {g l p : BitVec 8}
    (h : cfgValid P kind g l p = true) : BlockOk P (configuredBlock P kind g l p) := by
  have hg := @widthOk_widthOfField P.gMax g P.gMax_legal.2
  have hl := @widthOk_widthOfField P.lMax l P.lMax_legal.2
  have hp := @widthOk_widthOfField P.pMax p P.pMax_legal.2
  unfold cfgValid at h
  unfold configuredBlock
  cases e : kindOfField kind with
  | none => trivial
  | some k =>
    rw [e] at h
    cases k with
    | static => trivial
    | gshare => exact ⟨hg h, gshareOk_init P _⟩
    | tournament =>
      obtain ⟨hgl, hpv⟩ := Bool.and_eq_true_iff.mp h
      obtain ⟨hgv, hlv⟩ := Bool.and_eq_true_iff.mp hgl
      exact ⟨hg hgv, hl hlv, hp hpv, tournamentOk_init P _ _ _⟩
    | perceptron => exact ⟨hg h, rfl, perceptronOk_init P _⟩

/-- A TRAIN keeps a configured block good (R230, R135, R160, R192). -/
theorem runOk_runTrain {P : Params} {r r' : Run} {pc : Pc} {o : Bit} (h : RunOk P r)
    (e : runTrain P r pc o = some r') : RunOk P r' := by
  cases r with
  | static => exact Option.some.inj e ▸ h
  | gshare g t => exact Option.some.inj e ▸ ⟨h.1, gshareOk_trainStep pc o h.2⟩
  | tournament g l p t =>
    obtain ⟨hg, hl, hp, ht⟩ := h
    exact Option.some.inj e ▸ ⟨hg, hl, hp, tournamentOk_trainStep pc o ht⟩
  | perceptron g theta t =>
    obtain ⟨hg, htheta, ht⟩ := h
    obtain ⟨t', et, rfl⟩ := Option.map_eq_some_iff.mp e
    exact ⟨hg, htheta, perceptronOk_trainStep ht et⟩

/-- Every response word is legal that predicts Taken only with OK (R78, R260). -/
theorem responseOk_responseWord {pred : Bit} {st : Status} (h : pred = true → st = .ok) :
    ResponseOk (responseWord st pred) := by
  cases pred with
  | false => cases st <;> decide
  | true => rw [h rfl]; decide

/-- A raised status keeps a good block good, if WEIGHT_RANGE is raised only where `W_BITS` is finite (R260, R21). -/
theorem blockOk_statusEffect {P : Params} {st : Status} {b : Block} (h : BlockOk P b)
    (hst : st = .weightRange → P.wBits ≠ none) : BlockOk P (statusEffect st b) := by
  cases st with
  | cfgErr => trivial
  | weightRange => exact hst rfl
  | _ => exact h

namespace State.Inv

variable {s : State}

theorem withBlock {b : Block} (h : s.Inv) (hb : BlockOk blockParams b) : { s with block := b }.Inv := ⟨hb, h.2⟩

theorem respond {pred : Bit} {st : Status} (h : s.Inv) (hr : pred = true → st = .ok) :
    (Machine.respond pred st s).Inv :=
  ⟨h.1, List.forall_mem_cons.mpr ⟨responseOk_responseWord hr, h.2⟩⟩

theorem raise {st : Status} (h : s.Inv) (hst : st = .weightRange → blockParams.wBits ≠ none) :
    (Machine.raise st s).Inv :=
  (h.withBlock (blockOk_statusEffect h.1 hst)).respond nofun

theorem configureCmd (h : s.Inv) (kind : BitVec 4) (g l p : BitVec 8) :
    (Machine.configureCmd blockParams kind g l p s).Inv := by
  cases hv : cfgValid blockParams kind g l p with
  | true =>
    rw [configureCmd_valid s hv]
    exact (h.withBlock (blockOk_configuredBlock hv)).respond nofun
  | false =>
    rw [configureCmd_invalid s hv]
    exact h.raise nofun

theorem predictCmd (h : s.Inv) (pc : Pc) : (Machine.predictCmd blockParams pc s).Inv := by
  obtain ⟨pred, st, hr, e⟩ := predictCmd_eq_respond blockParams pc s
  exact e ▸ h.respond hr

theorem trainCmd (h : s.Inv) (pc : Pc) (o : Bit) : (Machine.trainCmd blockParams pc o s).Inv := by
  rcases trainCmd_cases blockParams pc o s with ⟨-, e⟩ | ⟨-, e⟩ | ⟨r, r', hb, er, e⟩ | ⟨-, -, -, -, hw, e⟩
  · exact e ▸ h.raise nofun
  · exact e ▸ h.raise nofun
  · have hr : RunOk blockParams r := by simpa [BlockOk, hb] using h.1
    exact e ▸ (h.withBlock (b := .configured r') (runOk_runTrain hr er)).respond nofun
  · exact e ▸ h.raise fun _ => hw

/-- Every command keeps the invariant. -/
theorem exec {t : State} {i : Instr} (h : s.Inv) (e : Machine.exec i s = .next t) : t.Inv := by
  cases i with
  | nop => exact Host.Outcome.next.inj e ▸ h.respond nofun
  | configure kind g l p => exact Host.Outcome.next.inj e ▸ h.configureCmd kind g l p
  | predict pc => exact Host.Outcome.next.inj e ▸ h.predictCmd pc
  | train pc o => exact Host.Outcome.next.inj e ▸ h.trainCmd pc o

end State.Inv

/-- Settles O52: a step waits, resets, answers an illegal word or executes a command, and each of these keeps the
invariant. -/
theorem everyStepKeepsTheInvariant : Obligations.EveryStepKeepsTheInvariant := by
  intro s t h hstep
  have taken (rest : List HostInput) : { s with inputs := rest }.Inv := h
  rcases step_next_cases hstep with ⟨-, rfl⟩ | ⟨rest, -, rfl⟩ | ⟨-, rest, -, -, -, rfl⟩ | ⟨-, rest, i, -, -, e⟩
  · exact h
  · exact (taken rest).withBlock trivial
  · exact (taken rest).raise nofun
  · exact (taken rest).exec e

/-! ### The configuration and MODE -/

/-- Settles O47: each kind's training rebuilds its own configuration around the new tables, and where the perceptron's
update fails `W_BITS` is finite. -/
theorem trainKeepsTheConfiguration : Obligations.TrainKeepsTheConfiguration := by
  intro s r pc o hs
  cases r with
  | static => exact ⟨_, _, congrArg _ (trainCmd_some hs rfl), rfl⟩
  | gshare g t => exact ⟨_, _, congrArg _ (trainCmd_some hs rfl), _, rfl⟩
  | tournament g l p t => exact ⟨_, _, congrArg _ (trainCmd_some hs rfl), _, rfl⟩
  | perceptron g theta t =>
    cases e : pTrainStep blockParams g.toNat theta t pc o with
    | none =>
      have er : runTrain blockParams (.perceptron g theta t) pc o = none := by simp [runTrain, e]
      exact ⟨_, _, congrArg _ (trainCmd_none hs er), .inl ⟨rfl, wBits_ne_none_of_pTrainStep e⟩⟩
    | some t' =>
      have er : runTrain blockParams (.perceptron g theta t) pc o = some (.perceptron g theta t') := by
        simp [runTrain, e]
      exact ⟨_, _, congrArg _ (trainCmd_some hs er), .inr ⟨t', rfl⟩⟩

/-- CONFIGURE leaves the block CONFIGURED or UNCONFIGURED, never FAULTED (R223). -/
theorem modeOf_configureCmd (P : Params) (kind : BitVec 4) (g l p : BitVec 8) (s : State) :
    modeOf (configureCmd P kind g l p s).block = .configured ∨
    modeOf (configureCmd P kind g l p s).block = .unconfigured := by
  cases hv : cfgValid P kind g l p with
  | true =>
    rw [configureCmd_valid s hv, respond_block, configuredBlock]
    cases kindOfField kind with
    | none => exact .inr rfl
    | some k => exact .inl rfl
  | false =>
    rw [configureCmd_invalid s hv]
    exact .inr rfl

/-- A TRAIN changes MODE only from a PERCEPTRON configuration, to FAULTED (R21). -/
theorem trainCmd_changes_mode {P : Params} {pc : Pc} {o : Bit} {s : State}
    (h : modeOf (trainCmd P pc o s).block ≠ modeOf s.block) :
    ∃ g theta tabs, s.block = .configured (.perceptron g theta tabs) ∧
      modeOf (trainCmd P pc o s).block = .faulted := by
  rcases trainCmd_cases P pc o s with ⟨-, e⟩ | ⟨-, e⟩ | ⟨r, r', hb, -, e⟩ | ⟨g, theta, t, hb, -, e⟩
  · exact absurd (by rw [e]; rfl) h
  · exact absurd (by rw [e]; rfl) h
  · exact absurd (by rw [e, hb]; rfl) h
  · exact ⟨g, theta, t, hb, by rw [e]; rfl⟩

/-- Settles O48: waiting, an illegal word, NOP and PREDICT keep the block, so a step with another MODE has taken one of
the three other inputs. -/
theorem onlyTheseEventsChangeMode : Obligations.OnlyTheseEventsChangeMode := by
  intro s t hstep hmode
  rcases step_next_cases hstep with ⟨-, rfl⟩ | ⟨rest, e, rfl⟩ | ⟨-, rest, -, -, -, rfl⟩ | ⟨c, rest, i, e, d, he⟩
  · exact absurd rfl hmode
  · exact ⟨.reset, rest, e, .inl ⟨rfl, rfl⟩⟩
  · exact absurd rfl hmode
  · cases i with
    | nop =>
      obtain rfl := Host.Outcome.next.inj he
      exact absurd rfl hmode
    | configure kind g l p =>
      obtain rfl := Host.Outcome.next.inj he
      exact ⟨.command c, rest, e, .inr (.inl ⟨c, kind, g, l, p, rfl, d, modeOf_configureCmd _ _ _ _ _ _⟩)⟩
    | predict pc =>
      obtain rfl := Host.Outcome.next.inj he
      exact absurd (by rw [predictCmd_block]) hmode
    | train pc o =>
      obtain rfl := Host.Outcome.next.inj he
      obtain ⟨g, theta, tabs, hb, hf⟩ := trainCmd_changes_mode hmode
      exact ⟨.command c, rest, e, .inr (.inr ⟨c, pc, o, g, theta, tabs, rfl, d, hb, hf⟩)⟩

/-! ### Inputs that leave no trace -/

/-- The step on an input that may not write takes it and keeps the block (R40, R222, R231, R261). -/
theorem step_of_not_mayWrite {s : State} {h : HostInput} {rest : List HostInput} (e : s.inputs = h :: rest)
    (hw : mayWrite h = false) : ∃ t, step s = .next t ∧ t.inputs = rest ∧ t.block = s.block := by
  cases h with
  | reset => exact absurd hw nofun
  | command c =>
    cases d : decode c with
    | illegal cause => exact ⟨_, step_illegal e d, rfl, rfl⟩
    | instr i =>
      cases i with
      | nop => exact ⟨_, step_instr e d, rfl, rfl⟩
      | predict pc => exact ⟨_, step_instr e d, predictCmd_inputs _ _ _, predictCmd_block _ _ _⟩
      | configure kind g l p => simp [mayWrite, d] at hw
      | train pc o => simp [mayWrite, d] at hw

/-- Two machines with the same block stay so when one of them is sent only the inputs of the other that may write. -/
theorem run_filter_mayWrite (xs : List HostInput) (s s' : State) (e : s.inputs = xs)
    (e' : s'.inputs = xs.filter mayWrite) (hb : s.block = s'.block) :
    ∃ t t', Host.Core.run Sys2Proof.core xs.length s = .next t ∧
      Host.Core.run Sys2Proof.core (xs.filter mayWrite).length s' = .next t' ∧ t.block = t'.block := by
  induction xs generalizing s s' with
  | nil => exact ⟨s, s', rfl, rfl, hb⟩
  | cons h xs ih =>
    cases hw : mayWrite h with
    | false =>
      obtain ⟨u, hu, eu, hbu⟩ := step_of_not_mayWrite e hw
      rw [List.filter_cons_of_neg (by simp [hw])] at e' ⊢
      rw [List.length_cons, run_succ _ hu]
      exact ih u s' eu e' (hbu.trans hb)
    | true =>
      obtain ⟨b, rs, hstep⟩ := step_cases h s.block
      rw [List.filter_cons_of_pos hw] at e' ⊢
      rw [List.length_cons, List.length_cons, run_succ _ (hstep s xs e rfl), run_succ _ (hstep s' _ e' hb.symm)]
      exact ih _ _ rfl rfl rfl

/-- Settles O55: the machine and its copy that is sent only the writing inputs begin with the same block. -/
theorem onlyWritingInputsMatter : Obligations.OnlyWritingInputsMatter := fun s =>
  run_filter_mayWrite s.inputs s { s with inputs := s.inputs.filter mayWrite } rfl rfl rfl

/-! ### The codes of MODE and KIND -/

/-- A `kind` field selects the kind whose code it equals (R22, R81). -/
theorem kindOfField_eq_some_iff (k : BitVec 4) (kd : Kind) :
    kindOfField k = some kd ↔ (kindCode kd).toNat = k.toNat := by
  revert k
  cases kd <;> decide

/-- The `kind` fields 4 to 15 are unrecognized (R81). -/
theorem kindOfField_eq_none_iff (k : BitVec 4) : kindOfField k = none ↔ 4 ≤ k.toNat := by
  revert k
  decide

/-- Settles O44. -/
theorem modeAndKindCodes : Obligations.ModeAndKindCodes :=
  ⟨rfl, rfl, kindOfField_eq_some_iff, kindOfField_eq_none_iff⟩

end Sys2Proof.Machine

/-! ## Proofs of the memory family (20_memory.md)

The statements about the byte-wide transfer, the tables and the command port: what a run of steps answers, and on what
its answers depend. -/

namespace Sys2Proof

/-! ### The byte-wide transfer -/

@[simp] theorem length_bytesOfWord (c : Word) : (bytesOfWord c).length = 8 := by simp [bytesOfWord]

theorem getElem?_bytesOfWord (c : Word) {k : Nat} (hk : k < 8) : (bytesOfWord c)[k]? = some (transferByte c k) := by
  simp [bytesOfWord, hk]

theorem toNat_transferByte (c : Word) (k : Nat) : (transferByte c k).toNat = c.toNat / 2 ^ (8 * k) % 2 ^ 8 := by
  rw [transferByte, BitVec.extractLsb'_toNat, Nat.shiftRight_eq_div_pow]

/-- Adjacent fields of a word, put together one by one from the top, are the word (R54). -/
theorem wordOfBytes_bytesOfWord (c : Word) : wordOfBytes (bytesOfWord c) = some c := by
  show some (transferByte c 7 ++ transferByte c 6 ++ transferByte c 5 ++ transferByte c 4 ++ transferByte c 3
    ++ transferByte c 2 ++ transferByte c 1 ++ transferByte c 0) = some c
  simp (disch := rfl) only [transferByte, BitVec.extractLsb'_append_extractLsb'_eq_extractLsb']
  exact congrArg some BitVec.extractLsb'_eq_self

/-- Settles O7. -/
theorem transferIsLittleEndian : Obligations.TransferIsLittleEndian := by
  intro c
  refine ⟨fun k hk => ?_, length_bytesOfWord c, wordOfBytes_bytesOfWord c⟩
  rw [getElem?_bytesOfWord c hk, Option.map_some, toNat_transferByte]

/-- The word of a CONFIGURE decodes to it, whatever its operands (R73, R87). -/
theorem decode_encode_configure (kind : BitVec 4) (g l p : BitVec 8) :
    decode (encode (.configure kind g l p)) = .instr (.configure kind g l p) := by
  simp [encode, decode, opField_encConfigure, reservedC_encConfigure, kindField_encConfigure, gField_encConfigure,
    lField_encConfigure, pField_encConfigure]

end Sys2Proof

namespace Sys2Proof.Machine

/-! ### The tables -/

/-- Settles O17. -/
theorem tableWriteReplacesOneEntry : Obligations.TableWriteReplacesOneEntry :=
  fun _ _ _ _ i j v h => ⟨Table.read_write i j v h, Table.canonical_write i v h⟩

/-! ### One legal response for each command -/

/-- Every command answers once, and predicts Taken only with OK (R78, R260). -/
theorem exec_eq_respond (i : Instr) (s : State) : ∃ (pred : Bit) (st : Status) (b : Block),
    (pred = true → st = .ok) ∧ exec i s = .next (respond pred st { s with block := b }) := by
  cases i with
  | nop => exact ⟨false, .ok, s.block, nofun, rfl⟩
  | configure kind g l p =>
    cases hv : cfgValid blockParams kind g l p with
    | true => exact ⟨false, .ok, _, nofun, congrArg _ (configureCmd_valid s hv)⟩
    | false => exact ⟨false, .cfgErr, _, nofun, congrArg _ (configureCmd_invalid s hv)⟩
  | predict pc =>
    obtain ⟨pred, st, hpred, e⟩ := predictCmd_eq_respond blockParams pc s
    exact ⟨pred, st, s.block, hpred, congrArg _ e⟩
  | train pc o =>
    rcases trainCmd_cases blockParams pc o s with ⟨-, e⟩ | ⟨-, e⟩ | ⟨-, r', -, -, e⟩ | ⟨-, -, -, -, -, e⟩
    · exact ⟨false, .notConfigured, _, nofun, congrArg _ e⟩
    · exact ⟨false, .faulted, _, nofun, congrArg _ e⟩
    · exact ⟨false, .ok, .configured r', nofun, congrArg _ e⟩
    · exact ⟨false, .weightRange, _, nofun, congrArg _ e⟩

/-- A step on an input takes it, and adds one legal response for a command and none for a reset (R57, R78). -/
theorem step_answers {s : State} {h : HostInput} {rest : List HostInput} (e : s.inputs = h :: rest) :
    ∃ (b : Block) (rs : List Byte), step s = .next { block := b, inputs := rest, responses := rs ++ s.responses } ∧
      rs.length = (isCommand h).toNat ∧ ∀ r ∈ rs, ResponseOk r := by
  cases h with
  | reset => exact ⟨.unconfigured, [], step_reset e, rfl, nofun⟩
  | command c =>
    cases d : decode c with
    | illegal cause =>
      exact ⟨s.block, [responseWord .illegalCmd false], step_illegal e d, rfl,
        List.forall_mem_singleton.mpr (responseOk_responseWord nofun)⟩
    | instr i =>
      obtain ⟨pred, st, b, hpred, he⟩ := exec_eq_respond i { s with inputs := rest }
      exact ⟨b, [responseWord st pred], (step_instr e d).trans he, rfl,
        List.forall_mem_singleton.mpr (responseOk_responseWord hpred)⟩

/-- The run that takes every pending input, by induction on them. -/
theorem run_answers (xs : List HostInput) (s : State) (e : s.inputs = xs) : ∃ (t : State) (rs : List Byte),
    Host.Core.run Sys2Proof.core xs.length s = .next t ∧ t.inputs = [] ∧ t.responses = rs ++ s.responses ∧
      rs.length = xs.countP isCommand ∧ ∀ r ∈ rs, ResponseOk r := by
  induction xs generalizing s with
  | nil => exact ⟨s, [], rfl, e, rfl, rfl, nofun⟩
  | cons h xs ih =>
    obtain ⟨b, rs, hstep, hlen, hok⟩ := step_answers e
    obtain ⟨t, rs', hrun, hin, hresp, hlen', hok'⟩ := ih ⟨b, xs, rs ++ s.responses⟩ rfl
    refine ⟨t, rs' ++ rs, (run_succ _ hstep).trans hrun, hin, ?_, ?_, List.forall_mem_append.mpr ⟨hok', hok⟩⟩
    · rw [hresp, List.append_assoc]
    · rw [List.length_append, hlen', hlen, List.countP_cons, Bool.toNat, Bool.cond_eq_ite]

/-- Settles O51. -/
theorem everyCommandIsAnsweredOnce : Obligations.EveryCommandIsAnsweredOnce := fun s => run_answers s.inputs s rfl

/-! ### Replay -/

/-- The block and the new responses after a run depend on the block and the pending inputs alone (R61). -/
theorem run_cases (n : Nat) (b : Block) (xs : List HostInput) : ∃ (b' : Block) (xs' : List HostInput) (rs : List Byte),
    ∀ s : State, s.block = b → s.inputs = xs →
      Host.Core.run Sys2Proof.core n s = .next { block := b', inputs := xs', responses := rs ++ s.responses } := by
  induction n generalizing b xs with
  | zero => exact ⟨b, xs, [], fun s hb hx => by subst hb hx; rfl⟩
  | succ n ih =>
    cases xs with
    | nil =>
      obtain ⟨b', xs', rs, hrun⟩ := ih b []
      exact ⟨b', xs', rs, fun s hb hx => (run_succ n (step_idle hx)).trans (hrun s hb hx)⟩
    | cons h rest =>
      obtain ⟨b₁, rs₁, hstep⟩ := step_cases h b
      obtain ⟨b', xs', rs, hrun⟩ := ih b₁ rest
      refine ⟨b', xs', rs ++ rs₁, fun s hb hx => ?_⟩
      rw [run_succ n (hstep s rest hx hb), hrun _ rfl rfl, List.append_assoc]

/-- A CONFIGURE's block and response do not depend on the state it is sent in (R293). -/
theorem exec_configure_cases (kind : BitVec 4) (g l p : BitVec 8) : ∃ (b : Block) (r : Byte), ∀ s : State,
    exec (.configure kind g l p) s = .next { s with block := b, responses := r :: s.responses } := by
  cases hv : cfgValid blockParams kind g l p with
  | true => exact ⟨_, _, fun s => congrArg _ (configureCmd_valid s hv)⟩
  | false => exact ⟨.unconfigured, _, fun s => congrArg _ (configureCmd_invalid s hv)⟩

/-- Settles O54: the CONFIGURE brings both machines to one block, and from there the runs depend on the same block and
the same inputs. -/
theorem replayAfterConfigureIsDeterministic : Obligations.ReplayAfterConfigureIsDeterministic := by
  intro s₁ s₂ kind g l p rest n e₁ e₂
  obtain ⟨b, r, hconf⟩ := exec_configure_cases kind g l p
  obtain ⟨b', xs', rs, hrun⟩ := run_cases n b rest
  have replay (s : State) (e : s.inputs = .command (encode (.configure kind g l p)) :: rest) :
      Host.Core.run Sys2Proof.core (n + 1) s
        = .next { block := b', inputs := xs', responses := (rs ++ [r]) ++ s.responses } := by
    rw [run_succ n ((step_instr e (decode_encode_configure kind g l p)).trans (hconf _)), hrun _ rfl rfl,
      List.append_assoc, List.singleton_append]
  exact ⟨_, _, rs ++ [r], replay s₁ e₁, replay s₂ (e₂.trans e₁), rfl, rfl, rfl, rfl⟩

end Sys2Proof.Machine

/-! ## Proofs of the encoding family (30_encoding.md)

The decoder and the encoder are inverse to each other; from that follow the row of each command, its operands and the
assembler's words. -/

namespace Sys2Proof

/-! ### Decoding, by the fields of the word (R86) -/

theorem decode_nop {c : Word} (hop : opField c = 0x0#4) (hres : reservedN c = 0#60) : decode c = .instr .nop := by
  simp [decode, hop, hres]

theorem decode_configure {c : Word} (hop : opField c = 0x1#4) (hres : reservedC c = 0#32) :
    decode c = .instr (.configure (kindField c) (gField c) (lField c) (pField c)) := by
  simp [decode, hop, hres]

theorem decode_predict {c : Word} (hop : opField c = 0x2#4) (hres : reservedP c = 0#28) :
    decode c = .instr (.predict (pcField c)) := by
  simp [decode, hop, hres]

theorem decode_train {c : Word} (hop : opField c = 0x3#4) (hres : reservedT c = 0#27) :
    decode c = .instr (.train (pcField c) (outcomeField c)) := by
  simp [decode, hop, hres]

/-- The words that do not decode (R76, R77). -/
theorem decode_illegal_iff (c : Word) : (∃ cause, decode c = .illegal cause) ↔
    ¬(opField c = 0x0#4 ∧ reservedN c = 0#60) ∧ ¬(opField c = 0x1#4 ∧ reservedC c = 0#32) ∧
      ¬(opField c = 0x2#4 ∧ reservedP c = 0#28) ∧ ¬(opField c = 0x3#4 ∧ reservedT c = 0#27) := by
  rcases decode_cases c with ⟨h, hf⟩ | ⟨h, hf⟩ | ⟨h, hf⟩ | ⟨h, hf⟩ | ⟨h, hf⟩ | ⟨h, hf⟩
  · simp [h, hf]
  · simp [h, hf]
  · simp [h, hf]
  · simp [h, hf]
  · rcases hf with hf | hf | hf | hf <;> simp [h, hf]
  · simp [h, hf]

/-! ### The fields of a legal word, put together again (R87) -/

theorem eq_zero_of_fields {c : Word} (hop : opField c = 0x0#4) (hres : reservedN c = 0#60) : c = 0#64 := by
  rw [← BitVec.toNat_inj, toNat_opField] at hop
  rw [← BitVec.toNat_inj, toNat_reservedN] at hres
  bv_omega

theorem encConfigure_fields {c : Word} (hop : opField c = 0x1#4) (hres : reservedC c = 0#32) :
    encConfigure (kindField c) (gField c) (lField c) (pField c) = c := by
  rw [← BitVec.toNat_inj, toNat_opField] at hop
  rw [← BitVec.toNat_inj, toNat_reservedC] at hres
  rw [← BitVec.toNat_inj, toNat_encConfigure, toNat_kindField, toNat_gField, toNat_lField, toNat_pField]
  bv_omega

theorem encPredict_fields {c : Word} (hop : opField c = 0x2#4) (hres : reservedP c = 0#28) :
    encPredict (pcField c) = c := by
  rw [← BitVec.toNat_inj, toNat_opField] at hop
  rw [← BitVec.toNat_inj, toNat_reservedP] at hres
  rw [← BitVec.toNat_inj, toNat_encPredict, toNat_pcField]
  bv_omega

theorem encTrain_fields {c : Word} (hop : opField c = 0x3#4) (hres : reservedT c = 0#27) :
    encTrain (pcField c) (outcomeField c) = c := by
  rw [← BitVec.toNat_inj, toNat_opField] at hop
  rw [← BitVec.toNat_inj, toNat_reservedT] at hres
  rw [← BitVec.toNat_inj, toNat_encTrain, toNat_pcField, toNat_outcomeField]
  bv_omega

/-! ### The round trips -/

@[simp] theorem decode_encode (i : Instr) : decode (encode i) = .instr i := by
  cases i with
  | nop => exact decode_nop rfl rfl
  | configure kind g l p => exact decode_encode_configure kind g l p
  | predict pc =>
    rw [encode, decode_predict (opField_encPredict pc) (reservedP_encPredict pc), pcField_encPredict]
  | train pc o =>
    rw [encode, decode_train (opField_encTrain pc o) (reservedT_encTrain pc o), pcField_encTrain, outcomeField_encTrain]

theorem encode_of_decode {c : Word} {i : Instr} (h : decode c = .instr i) : encode i = c := by
  rcases decode_cases c with ⟨e, hop, hres⟩ | ⟨e, hop, hres⟩ | ⟨e, hop, hres⟩ | ⟨e, hop, hres⟩ | ⟨e, -⟩ | ⟨e, -⟩
  · cases h.symm.trans e
    exact (eq_zero_of_fields hop hres).symm
  · cases h.symm.trans e
    exact encConfigure_fields hop hres
  · cases h.symm.trans e
    exact encPredict_fields hop hres
  · cases h.symm.trans e
    exact encTrain_fields hop hres
  · cases h.symm.trans e
  · cases h.symm.trans e

/-- Settles O1. -/
theorem decodeOfEncodeIsTheCommand : Obligations.DecodeOfEncodeIsTheCommand := decode_encode

/-- Settles O2. -/
theorem encodeOfDecodeIsTheWord : Obligations.EncodeOfDecodeIsTheWord := fun _ _ => encode_of_decode

/-- A word decodes to a command exactly when it is the command's word (R86, R87). -/
theorem decode_eq_instr_iff (c : Word) (i : Instr) : decode c = .instr i ↔ encode i = c :=
  ⟨encode_of_decode, fun h => h ▸ decode_encode i⟩

/-! ### The rows, the operands and the illegal words -/

/-- The word of every command has the match of the command's row under the row's mask (R86, R87). -/
theorem encode_and_rowMask (i : Instr) : encode i &&& rowMask i = rowMatch i := by
  cases i with
  | nop => exact Laws.EncodesToItsRow.nop
  | configure kind g l p => exact Laws.EncodesToItsRow.configure kind g l p
  | predict pc => exact Laws.EncodesToItsRow.predict pc
  | train pc o => exact Laws.EncodesToItsRow.train pc o

theorem and_rowMask_of_decode {c : Word} {i : Instr} (h : decode c = .instr i) : c &&& rowMask i = rowMatch i :=
  encode_of_decode h ▸ encode_and_rowMask i

/-- A mask that is all ones over a field keeps the field. -/
theorem extractLsb'_of_and_eq {c m v : Word} (h : c &&& m = v) (start len : Nat)
    (hm : m.extractLsb' start len = BitVec.allOnes len) : c.extractLsb' start len = v.extractLsb' start len := by
  rw [← h, BitVec.extractLsb'_and, hm, BitVec.and_allOnes]

/-- Settles O3: every mask is all ones over the opcode and over the reserved bits of its format. -/
theorem decodeFollowsMatchAndMask : Obligations.DecodeFollowsMatchAndMask := by
  intro c
  refine ⟨⟨and_rowMask_of_decode, fun h => ?_⟩, ⟨?_, fun h => ⟨kindField c, gField c, lField c, pField c, ?_⟩⟩,
    ⟨?_, fun h => ⟨pcField c, ?_⟩⟩, ⟨?_, fun h => ⟨pcField c, outcomeField c, ?_⟩⟩⟩
  · have hop : opField c = 0x0#4 := extractLsb'_of_and_eq h 0 4 (by decide)
    have hres : reservedN c = 0#60 := extractLsb'_of_and_eq h 4 60 (by decide)
    exact decode_nop hop hres
  · rintro ⟨kind, g, l, p, h⟩
    exact and_rowMask_of_decode h
  · have hop : opField c = 0x1#4 := extractLsb'_of_and_eq h 0 4 (by decide)
    have hres : reservedC c = 0#32 := extractLsb'_of_and_eq h 32 32 (by decide)
    exact decode_configure hop hres
  · rintro ⟨pc, h⟩
    exact and_rowMask_of_decode h
  · have hop : opField c = 0x2#4 := extractLsb'_of_and_eq h 0 4 (by decide)
    have hres : reservedP c = 0#28 := extractLsb'_of_and_eq h 4 28 (by decide)
    exact decode_predict hop hres
  · rintro ⟨pc, o, h⟩
    exact and_rowMask_of_decode h
  · have hop : opField c = 0x3#4 := extractLsb'_of_and_eq h 0 4 (by decide)
    have hres : reservedT c = 0#27 := extractLsb'_of_and_eq h 5 27 (by decide)
    exact decode_train hop hres

/-- Settles O4: the word is the command's word, whose fields hold the operands. -/
theorem operandsAreUnsignedFields : Obligations.OperandsAreUnsignedFields := by
  intro c
  simp only [decode_eq_instr_iff, encode]
  refine ⟨?_, ?_, ?_⟩
  · rintro kind g l p rfl
    rw [← toNat_kindField, ← toNat_gField, ← toNat_lField, ← toNat_pField, kindField_encConfigure, gField_encConfigure,
      lField_encConfigure, pField_encConfigure]
    exact ⟨rfl, rfl, rfl, rfl⟩
  · rintro pc rfl
    rw [← toNat_pcField, pcField_encPredict]
  · rintro pc o rfl
    rw [← toNat_pcField, ← toNat_outcomeField, pcField_encTrain, outcomeField_encTrain]
    exact ⟨rfl, rfl⟩

/-- Settles O5. -/
theorem illegalWordsAnswerIllegalCmd : Obligations.IllegalWordsAnswerIllegalCmd := by
  refine ⟨fun c => ?_, fun s => Machine.raise_eq .illegalCmd s⟩
  rw [decode_illegal_iff]
  simp only [← BitVec.toNat_inj, toNat_opField, toNat_reservedN, toNat_reservedC, toNat_reservedP, toNat_reservedT,
    BitVec.toNat_ofNat]
  omega

/-- Settles O6. -/
theorem wordsOfTheSpecDecode : Obligations.WordsOfTheSpecDecode := by
  unfold Obligations.WordsOfTheSpecDecode
  decide

end Sys2Proof

namespace Sys2Proof.Machine

/-! ### The response word -/

theorem statusField_responseWord (st : Status) (pred : Bit) : statusField (responseWord st pred) = statusCode st :=
  (BitVec.extractLsb'_append_eq_of_le (by decide)).trans
    ((BitVec.extractLsb'_append_eq_of_le (by decide)).trans BitVec.extractLsb'_eq_self)

theorem reserved_responseWord (st : Status) (pred : Bit) : (responseWord st pred).extractLsb' 1 3 = 0#3 :=
  (BitVec.extractLsb'_append_eq_of_le (by decide)).trans (BitVec.extractLsb'_append_eq_of_add_le (by decide))

theorem predField_responseWord (st : Status) (pred : Bit) : predField (responseWord st pred) = pred :=
  BitVec.getLsbD_append.trans (by simp)

/-- Settles O8. -/
theorem responseWordFields : Obligations.ResponseWordFields :=
  ⟨fun st pred =>
    ⟨statusField_responseWord st pred, reserved_responseWord st pred, predField_responseWord st pred⟩, rfl⟩

/-! ### The assembler -/

theorem assemble_of_fits {a : AsmLine} (h : asmFits a = true) : assemble a = some (asmWords a) := if_pos h

theorem assemble_eq_none_iff (a : AsmLine) : assemble a = none ↔ ¬asmFits a = true := by simp [assemble]

theorem assemble_congr {a b : AsmLine} (hf : asmFits a = asmFits b) (hw : asmWords a = asmWords b) :
    assemble a = assemble b := by
  rw [assemble, assemble, hf, hw]

/-- A line that fits and stands for the words of some commands decodes to those commands. -/
theorem decode_assemble {a : AsmLine} (is : List Instr) (hf : asmFits a = true) (hw : asmWords a = is.map encode) :
    (assemble a).map (List.map decode) = some (is.map .instr) := by
  simp [assemble_of_fits hf, hw]

theorem asmFits_configureRaw (k g l p : Nat) :
    asmFits (.configureRaw k g l p) = true ↔ k < 2 ^ 4 ∧ g < 2 ^ 8 ∧ l < 2 ^ 8 ∧ p < 2 ^ 8 := by
  simp only [asmFits, Bool.and_eq_true, decide_eq_true_eq, and_assoc]

theorem assemble_configureRaw_eq_none {k g l p : Nat} (h : 2 ^ 4 ≤ k ∨ 2 ^ 8 ≤ g ∨ 2 ^ 8 ≤ l ∨ 2 ^ 8 ≤ p) :
    assemble (.configureRaw k g l p) = none := by
  rw [assemble_eq_none_iff, asmFits_configureRaw]
  omega

/-! The forms by name are the raw form with the kind's number and 0 in the fields they do not have (R83). -/

theorem assemble_configureStatic : assemble .configureStatic = assemble (.configureRaw 0 0 0 0) := rfl

theorem assemble_configureGshare (g : Nat) :
    assemble (.configureGshare g) = assemble (.configureRaw 1 g 0 0) :=
  assemble_congr (by simp [asmFits]) rfl

theorem assemble_configureTournament (g l p : Nat) :
    assemble (.configureTournament g l p) = assemble (.configureRaw 2 g l p) :=
  assemble_congr (by simp [asmFits]) rfl

theorem assemble_configurePerceptron (g : Nat) :
    assemble (.configurePerceptron g) = assemble (.configureRaw 3 g 0 0) :=
  assemble_congr (by simp [asmFits]) rfl

/-- Settles O9. -/
theorem assembledLinesDecodeToTheirCommands : Obligations.AssembledLinesDecodeToTheirCommands := by
  refine ⟨fun pc o h => ?_, fun pc o h => ?_, fun k g l p hk hg hl hp => ?_, fun k g l p => ?_,
    decode_assemble [.nop] rfl rfl, fun w => ?_⟩
  · have fits : decide (pc < 2 ^ 32) = true := decide_eq_true h
    exact ⟨decode_assemble [.predict _] fits rfl, decode_assemble [.train _ _] fits rfl,
      decode_assemble [.predict _, .train _ _] fits rfl⟩
  · have misfits : ¬decide (pc < 2 ^ 32) = true := by simpa using h
    exact ⟨(assemble_eq_none_iff _).mpr misfits, (assemble_eq_none_iff _).mpr misfits,
      (assemble_eq_none_iff _).mpr misfits⟩
  · exact ⟨decode_assemble [.configure _ _ _ _] ((asmFits_configureRaw k g l p).mpr ⟨hk, hg, hl, hp⟩) rfl,
      assemble_configureGshare g, assemble_configureTournament g l p, assemble_configurePerceptron g,
      assemble_configureStatic⟩
  · refine ⟨fun h => ⟨?_, ?_⟩, fun h => ?_, assemble_configureRaw_eq_none⟩
    · exact (assemble_configureGshare g).trans (assemble_configureRaw_eq_none (.inr (.inl h)))
    · exact (assemble_configurePerceptron g).trans (assemble_configureRaw_eq_none (.inr (.inl h)))
    · exact (assemble_configureTournament g l p).trans (assemble_configureRaw_eq_none (.inr h))
  · refine ⟨fun h => ⟨BitVec.ofNat 64 w, Nat.mod_eq_of_lt h, assemble_of_fits (decide_eq_true h)⟩, fun h => ?_⟩
    rw [assemble_eq_none_iff, asmFits, decide_eq_true_eq]
    exact h.not_gt

end Sys2Proof.Machine

/-! ## Proofs of the counter and history family (40_counter_history.md) -/

namespace Sys2Proof.Machine

/-! ### The saturating counter -/

/-- The top bit of a number below `2^(m + 1)`: set exactly from `2^m` up. -/
theorem testBit_top {m c : Nat} (h : c < 2 ^ (m + 1)) : c.testBit m = decide (2 ^ m ≤ c) := by
  rcases Nat.lt_or_ge c (2 ^ m) with hlow | hhigh
  · rw [Nat.testBit_lt_two_pow hlow, decide_eq_false hlow.not_ge]
  · rw [Nat.testBit_of_two_pow_le_and_two_pow_add_one_gt hhigh h, decide_eq_true hhigh]

/-- Settles O10. -/
theorem counterReadsItsHighBit : Obligations.CounterReadsItsHighBit := by
  refine fun n c hn => ⟨rfl, fun hc => ?_⟩
  rw [← Nat.sub_add_cancel hn] at hc
  exact (testBit_top hc).symm

/-- SC_UPDATE towards Taken (R103). -/
theorem scUpdate_taken (n c : Nat) : scUpdate n c true = min (c + 1) (2 ^ n - 1) := rfl

/-- SC_UPDATE towards Not-Taken (R103). -/
theorem scUpdate_notTaken (n c : Nat) : scUpdate n c false = c - 1 := rfl

/-- Settles O11: natural-number subtraction is the clamp at 0, and `2^n - 1` does not wrap since `1 ≤ 2^n`. -/
theorem counterUpdateSaturates : Obligations.CounterUpdateSaturates := by
  intro n c o _
  cases o with
  | false =>
    rw [scUpdate_notTaken, if_neg Bool.false_ne_true]
    omega
  | true =>
    have hmax : ((2 ^ n - 1 : Nat) : Int) = 2 ^ n - 1 := by
      rw [Nat.cast_pred (Nat.two_pow_pos n), Nat.cast_pow, Nat.cast_ofNat]
    rw [scUpdate_taken, if_pos rfl, Nat.cast_min, hmax, Nat.cast_succ]

/-- Settles O12, by induction on the outcomes: each update keeps the range (`scUpdate_lt`). -/
theorem counterNeverLeavesItsRange : Obligations.CounterNeverLeavesItsRange := by
  intro n c os h
  induction os generalizing c with
  | nil => exact h
  | cons o os ih => exact ih _ (scUpdate_lt o h)

/-- Settles O13. -/
theorem counterTransitionTable : Obligations.CounterTransitionTable := by
  unfold Obligations.CounterTransitionTable
  decide

/-! ### The history register -/

/-- HR_SHIFT puts the outcome below the register's bits and keeps the low `w` bits (R108). -/
theorem hrShift_eq_bit (r : Nat) (o : Bit) (w : Nat) : hrShift r o w = Nat.bit o r % 2 ^ w := by
  rw [hrShift_eq, Nat.bit_val]

/-- The outcome enters at bit 0. -/
theorem testBit_hrShift_zero (r : Nat) (o : Bit) (w : Nat) :
    (hrShift r o w).testBit 0 = (decide (0 < w) && o) := by
  rw [hrShift_eq_bit, Nat.testBit_mod_two_pow, Nat.testBit_bit_zero]

/-- Every other bit moves up one place; the oldest falls out at bit `w`. -/
theorem testBit_hrShift_succ (r : Nat) (o : Bit) (w i : Nat) :
    (hrShift r o w).testBit (i + 1) = (decide (i + 1 < w) && r.testBit i) := by
  rw [hrShift_eq_bit, Nat.testBit_mod_two_pow, Nat.testBit_bit_succ]

/-- A register of width 1 is the last outcome (R108). -/
theorem hrShift_width_one (r : Nat) (o : Bit) : hrShift r o 1 = o.toNat := by
  rw [hrShift_eq, pow_one, Nat.mul_add_mod, Nat.mod_eq_of_lt o.toNat_lt]

/-- Settles O16. -/
theorem historyShiftDropsTheOldestBit : Obligations.HistoryShiftDropsTheOldestBit := by
  refine fun r w o (hw : 0 < w) => ⟨and_mask _ w, ?_, testBit_hrShift_succ r o w, ?_⟩
  · rw [testBit_hrShift_zero, decide_eq_true hw, Bool.true_and]
  · rintro rfl
    exact hrShift_width_one r o

/-- Settles O14: 0 fits every width, and whatever the register was, a shift leaves one that fits (`hrShift_lt`). -/
theorem historyKeepsItsWidth : Obligations.HistoryKeepsItsWidth := by
  intro w os
  obtain rfl | ⟨os, o, rfl⟩ := os.eq_nil_or_concat'
  · exact Nat.two_pow_pos w
  · rw [List.foldl_concat]
    exact hrShift_lt _ o w

/-- Settles O15, by induction on the outcomes, the most recent one last: it is bit 0, and the `i`-th most recent of the
others, bit `i` before the shift, is bit `i + 1` after it. -/
theorem historyBitIsIthMostRecentOutcome : Obligations.HistoryBitIsIthMostRecentOutcome := by
  intro w os i
  induction os using List.reverseRecOn generalizing i with
  | nil => simp
  | append_singleton os o ih =>
    rw [List.foldl_concat, List.reverse_concat]
    cases i with
    | zero => rw [testBit_hrShift_zero, List.getD_cons_zero]
    | succ i =>
      have hw : i + 1 < w → i < w := Nat.lt_of_succ_lt
      rw [testBit_hrShift_succ, ih, List.getD_cons_succ, ← Bool.and_assoc, ← Bool.decide_and]
      simp only [and_iff_left_of_imp hw]

end Sys2Proof.Machine

/-! ## Proofs of the gshare family (41_gshare.md)

The statements about the GSHARE kind, from what PREDICT and TRAIN do in any configured block and what a training step
does to every two-bit counter; both serve the other kinds too. -/

namespace Sys2Proof.Machine

/-! ### PREDICT and TRAIN in a configured block -/

/-- An OK response is the prediction bit alone (R78, R260). -/
theorem responseWord_ok (pred : Bit) : responseWord .ok pred = if pred then 0x01#8 else 0x00#8 := by
  cases pred <;> rfl

/-- PREDICT of a configured block answers its run's prediction and changes nothing else (R227, R231). -/
theorem exec_predict_configured {s : State} {r : Run} (pc : Pc) (h : s.block = .configured r) :
    exec (.predict pc) s =
      .next { s with responses := (if runPredict blockParams r pc then 0x01#8 else 0x00#8) :: s.responses } := by
  rw [← responseWord_ok]
  exact congrArg _ (predictCmd_configured pc h)

/-- TRAIN of a configured block whose update succeeds answers OK and replaces the run (R228). -/
theorem exec_train_some {s : State} {r r' : Run} {pc : Pc} {o : Bit} (h : s.block = .configured r)
    (e : runTrain blockParams r pc o = some r') :
    exec (.train pc o) s = .next { s with block := .configured r', responses := 0x00#8 :: s.responses } :=
  congrArg _ (trainCmd_some h e)

/-- A good state's configured block is a good run. -/
theorem State.Inv.runOk {s : State} {r : Run} (h : s.Inv) (hb : s.block = .configured r) : RunOk blockParams r :=
  (congrArg (BlockOk blockParams) hb).mp h.1

/-! ### Two-bit counters and the GSHARE kind -/

/-- SC_UPDATE on a two-bit counter (R103, R107). -/
theorem scUpdate_two (c : Nat) (o : Bit) : scUpdate 2 c o = if o then min (c + 1) 3 else c - 1 := rfl

/-- A training step steps the named two-bit counter and leaves every other one (R103, R52). -/
theorem ctrRead_ctrTrain_two {t : Table Nat} (i j : Nat) (o : Bit) (h : t.Canonical (wn 2)) :
    ctrRead 2 (ctrTrain 2 t i o) j =
      if j = i then (if o then min (ctrRead 2 t j + 1) 3 else ctrRead 2 t j - 1) else ctrRead 2 t j := by
  rw [ctrRead_ctrTrain i j o h, ← scUpdate_two]
  split
  next hj => rw [hj]
  next => rfl

/-- GS_READING at the block's parameters (R132). -/
theorem gsReading_blockParams (g : Nat) (t : GshareTables) (pc : Pc) :
    gsReading blockParams g t pc = decide (2 ≤ ctrRead 2 t.gsPht ((pc.toNat % 2 ^ g) ^^^ t.gsGhr)) := by
  rw [← gsIndex_eq]
  rfl

/-- Every counter of GS_PHT after a training step, the index formed from the history before it (R133). -/
theorem ctrRead_gsTrainStep {g : Nat} {t : GshareTables} (pc : Pc) (o : Bit) (h : GshareOk blockParams g t) (i : Nat) :
    ctrRead 2 (gsTrainStep blockParams g t pc o).gsPht i =
      if i = (pc.toNat % 2 ^ g) ^^^ t.gsGhr then
        (if o then min (ctrRead 2 t.gsPht i + 1) 3 else ctrRead 2 t.gsPht i - 1)
      else ctrRead 2 t.gsPht i := by
  obtain ⟨-, hcanon, -, -⟩ := h
  rw [← gsIndex_eq]
  exact ctrRead_ctrTrain_two _ i o hcanon

/-- GS_GHR after a training step (R133). -/
theorem gsGhr_gsTrainStep (P : Params) (g : Nat) (t : GshareTables) (pc : Pc) (o : Bit) :
    (gsTrainStep P g t pc o).gsGhr = (2 * t.gsGhr + o.toNat) % 2 ^ g := hrShift_eq t.gsGhr o g

/-- Settles O27: the prediction of a GSHARE run is GS_READING. -/
theorem gsharePredictReadsTheFoldedCounter : Obligations.GsharePredictReadsTheFoldedCounter := by
  intro s g t pc hs
  rw [exec_predict_configured pc hs, runPredict, gsReading_blockParams]
  simp only [decide_eq_true_eq]

/-- Settles O28: the tables after the TRAIN are those of GS_TRAIN_STEP, and the invariant makes GS_PHT canonical, so
that a write is read back at its own index only. -/
theorem gshareTrainStepsOneCounterThenShifts : Obligations.GshareTrainStepsOneCounterThenShifts := by
  intro s g t pc o hinv hs
  obtain ⟨-, ht⟩ : RunOk blockParams (.gshare g t) := hinv.runOk hs
  exact ⟨gsTrainStep blockParams g.toNat t pc o, exec_train_some hs rfl, gsGhr_gsTrainStep _ _ t pc o,
    ctrRead_gsTrainStep pc o ht⟩

end Sys2Proof.Machine

/-! ## Proofs of the tournament family (42_tournament.md)

What the indexes, the readings and the training steps of the TOURNAMENT kind are at the block's parameters; the
global sub-predictor's part is that of the gshare family. -/

namespace Sys2Proof.Machine

/-! ### Indexes and readings -/

/-- T_PCIDX (R151). -/
theorem tPcIdx_eq (p : Nat) (pc : Pc) : tPcIdx p pc = pc.toNat % 2 ^ p := pcLow_eq pc p

/-- T_LIDX (R152). -/
theorem tLIdx_eq (p : Nat) (t : LocalTables) (pc : Pc) : tLIdx p t pc = histRead t.tLht (pc.toNat % 2 ^ p) := by
  rw [tLIdx, tPcIdx_eq]

/-- LOCAL_READING at the block's parameters (R153). -/
theorem localReading_blockParams (p : Nat) (t : LocalTables) (pc : Pc) :
    localReading blockParams p t pc = decide (2 ≤ ctrRead 2 t.tLpt (histRead t.tLht (pc.toNat % 2 ^ p))) := by
  rw [← tLIdx_eq]
  rfl

/-- META_READING at the block's parameters (R154). -/
theorem metaReading_blockParams (p : Nat) (t : TournamentTables) (pc : Pc) :
    metaReading blockParams p t pc = decide (2 ≤ ctrRead 2 t.tMeta (pc.toNat % 2 ^ p)) := by
  rw [← tPcIdx_eq]
  rfl

/-- The selector of R155 as a comparison of the meta counter. -/
theorem tPredict_blockParams (g p : Nat) (t : TournamentTables) (pc : Pc) :
    tPredict blockParams g p t pc =
      if ctrRead 2 t.tMeta (pc.toNat % 2 ^ p) < 2 then localReading blockParams p t.localPred pc
      else gsReading blockParams g t.globalPred pc := by
  simp only [tPredict, metaReading_blockParams, decide_eq_false_iff_not, not_le]

/-! ### Training steps -/

/-- Every counter of T_META after the meta update: only the address's counter moves, only if the readings differ, and
towards Not-Taken where the local reading matched the outcome (R156). -/
theorem ctrRead_metaTrain {p : Nat} {t : Table Nat} (pc : Pc) (loc glob o : Bit) (h : t.Canonical (wn 2)) (i : Nat) :
    ctrRead 2 (metaTrain blockParams p t pc loc glob o) i =
      if i = pc.toNat % 2 ^ p ∧ loc ≠ glob then
        (if loc = o then ctrRead 2 t i - 1 else min (ctrRead 2 t i + 1) 3)
      else ctrRead 2 t i := by
  rcases metaTrain_cases blockParams p t pc loc glob o with ⟨hagree, e⟩ | ⟨hdiffer, e⟩
  · rw [e, if_neg fun hi => hi.2 hagree]
  · rw [e, ← tPcIdx_eq]
    refine (ctrRead_ctrTrain_two _ i _ h).trans ?_
    simp only [hdiffer, ne_eq, not_false_eq_true, and_true, decide_eq_true_eq, ite_not]

/-- Every counter of T_LPT after a training step, the index formed from the history before it (R157). -/
theorem ctrRead_localTrainStep {l p : Nat} {t : LocalTables} (pc : Pc) (o : Bit) (h : LocalOk blockParams l p t)
    (i : Nat) : ctrRead 2 (localTrainStep blockParams l p t pc o).tLpt i =
      if i = histRead t.tLht (pc.toNat % 2 ^ p) then
        (if o then min (ctrRead 2 t.tLpt i + 1) 3 else ctrRead 2 t.tLpt i - 1)
      else ctrRead 2 t.tLpt i := by
  obtain ⟨-, hcanon, -, -⟩ := h
  rw [← tLIdx_eq]
  exact ctrRead_ctrTrain_two _ i o hcanon

/-- Every history of T_LHT after a training step (R158). -/
theorem histRead_localTrainStep {P : Params} {l p : Nat} {t : LocalTables} (pc : Pc) (o : Bit) (h : LocalOk P l p t)
    (i : Nat) : histRead (localTrainStep P l p t pc o).tLht i =
      if i = pc.toNat % 2 ^ p then (2 * histRead t.tLht i + o.toNat) % 2 ^ l else histRead t.tLht i := by
  obtain ⟨⟨hcanon, -, -⟩, -⟩ := h
  rw [← tPcIdx_eq, ← hrShift_eq]
  refine (histRead_histShift _ i o l hcanon).trans ?_
  split
  next hi => rw [hi]
  next => rfl

/-- Every counter of T_META after TRAIN's updates, the readings taken from the tables before them (R156, R160). -/
theorem ctrRead_tMeta_tTrainStep {g l p : Nat} {t : TournamentTables} (pc : Pc) (o : Bit)
    (h : TournamentOk blockParams g l p t) (i : Nat) :
    ctrRead 2 (tTrainStep blockParams g l p t pc o).tMeta i =
      if i = pc.toNat % 2 ^ p ∧ localReading blockParams p t.localPred pc ≠ gsReading blockParams g t.globalPred pc then
        (if localReading blockParams p t.localPred pc = o then ctrRead 2 t.tMeta i - 1
          else min (ctrRead 2 t.tMeta i + 1) 3)
      else ctrRead 2 t.tMeta i := by
  obtain ⟨⟨hcanon, -, -⟩, -, -⟩ := h
  exact ctrRead_metaTrain pc _ _ o hcanon i

/-! ### The obligations -/

/-- Settles O29: on each side of the meta counter's threshold the prediction is that sub-predictor's reading. -/
theorem tournamentPredictFollowsTheSelector : Obligations.TournamentPredictFollowsTheSelector := by
  intro s g l p t pc hs
  rw [exec_predict_configured pc hs, runPredict, tPredict_blockParams]
  by_cases hmeta : ctrRead 2 t.tMeta (pc.toNat % 2 ^ p.toNat) < 2
  · simp only [hmeta, if_true, localReading_blockParams, decide_eq_true_eq]
  · simp only [hmeta, if_false, gsReading_blockParams, decide_eq_true_eq]

/-- Settles O30: the tables after the TRAIN are those of R160, and the invariant makes every table canonical, so that
a write is read back at its own index only. -/
theorem tournamentTrainEffect : Obligations.TournamentTrainEffect := by
  intro s g l p t pc o hinv hs
  obtain ⟨-, -, -, ht⟩ : RunOk blockParams (.tournament g l p t) := hinv.runOk hs
  have ⟨_, hlocal, hglobal⟩ := ht
  refine ⟨tTrainStep blockParams g.toNat l.toNat p.toNat t pc o, exec_train_some hs rfl, ?_,
    ctrRead_localTrainStep pc o hlocal, histRead_localTrainStep pc o hlocal, ctrRead_gsTrainStep pc o hglobal,
    gsGhr_gsTrainStep _ _ t.globalPred pc o⟩
  rw [← localReading_blockParams, ← gsReading_blockParams]
  exact ctrRead_tMeta_tTrainStep pc o ht

/-- Settles O31: the tables after the TRAIN are those of R160, where the meta counter, at most 3 by the invariant, goes
down if the local reading matched the outcome and up if not. -/
theorem metaCounterMovesOneStepOnDivergence : Obligations.MetaCounterMovesOneStepOnDivergence := by
  intro s g l p t t' u pc o hinv hs hu hblock hdiffer
  obtain ⟨-, -, -, ht⟩ : RunOk blockParams (.tournament g l p t) := hinv.runOk hs
  obtain rfl := Host.Outcome.next.inj ((exec_train_some hs rfl).symm.trans hu)
  obtain rfl : tTrainStep blockParams g.toNat l.toNat p.toNat t pc o = t' := by
    simpa only [Block.configured.injEq, Run.tournament.injEq, true_and] using hblock
  have hmax : ctrRead 2 t.tMeta (pc.toNat % 2 ^ p.toNat) < 2 ^ 2 := ctrRead_lt ht.1 _
  have hmove := ctrRead_tMeta_tTrainStep pc o ht (pc.toNat % 2 ^ p.toNat)
  rw [if_pos ⟨rfl, hdiffer⟩] at hmove
  refine ⟨⟨fun hglobal => ?_, fun hlocal => ?_⟩, rfl, rfl⟩
  · rw [if_neg (hglobal ▸ hdiffer)] at hmove
    omega
  · rw [if_pos hlocal] at hmove
    omega

end Sys2Proof.Machine

/-! ## Proofs of the perceptron family (43_perceptron.md)

P_INDEX, the dot product as a sum and its bounds, the condition and the range check of an update, and what a training
step leaves in every entry; the parity of R195 is an invariant of its own. -/

namespace Sys2Proof.Machine

/-! ### The index, the dot product and THETA -/

/-- P_INDEX in XOR mode (R182). -/
theorem pIndex_xor {P : Params} (h : P.percIndex = .xor) (g : Nat) (t : PerceptronTables) (pc : Pc) :
    pIndex P g t pc = (pc.toNat ^^^ t.pGhr) % 2 ^ g := by
  rw [pIndex_eq, h]

/-- P_INDEX in PC mode (R182). -/
theorem pIndex_pc {P : Params} (h : P.percIndex = .pc) (g : Nat) (t : PerceptronTables) (pc : Pc) :
    pIndex P g t pc = pc.toNat % 2 ^ g := by
  rw [pIndex_eq, h]

/-- P_DOT is the bias plus the signed sum over the entry's weights (R184). -/
theorem pDot_eq (P : Params) (g : Nat) (t : PerceptronTables) (pc : Pc) :
    pDot P g t pc = 1 + ∑ j ∈ Finset.range g,
      weightAt (pEntry g t (pIndex P g t pc)) j * (if t.pGhr.testBit j then 1 else -1) :=
  dotWeights_eq g _ t.pGhr

/-- Settles O32: a history in its width is its own remainder, so the mask acts on the pc alone. -/
theorem perceptronIndexModes : Obligations.PerceptronIndexModes := by
  refine ⟨fun P g t pc => ⟨fun hxor => ⟨pIndex_xor hxor g t pc, fun hghr => ?_⟩,
    fun hpc => pIndex_pc hpc g t pc⟩, rfl⟩
  rw [pIndex_xor hxor, Nat.xor_mod_two_pow, Nat.mod_eq_of_lt hghr]

/-- Settles O33: the prediction of a PERCEPTRON run is the sign of P_DOT. -/
theorem perceptronPredictIsTheSignOfTheSum : Obligations.PerceptronPredictIsTheSignOfTheSum := by
  intro s g theta t pc hs
  rw [exec_predict_configured pc hs, runPredict, pDot_eq, pIndex_xor rfl]
  simp only [pPred, decide_eq_true_eq]

/-- Settles O37: THETA is its formula, evaluated at 1 to 32. -/
theorem thetaValues : Obligations.ThetaValues := ⟨by decide, fun _ => rfl⟩

/-! ### TRAIN -/

/-- P_NEED_UPDATE (R187): the prediction was wrong, or the confidence is below the threshold. -/
theorem pNeedUpdate_iff (theta : Nat) (y : Int) (o : Bit) :
    pNeedUpdate theta y o = true ↔ pPred y ≠ o ∨ |y| < theta := by
  rw [pNeedUpdate, Bool.or_eq_true, bne_iff_ne, decide_eq_true_eq, Int.abs_eq_natAbs, Nat.cast_lt]

/-- A weight fails the range check only under a finite `W_BITS`, outside its range (R189). -/
theorem weightInRange_eq_false_iff (wBits : Option Nat) (w : Int) :
    weightInRange wBits w = false ↔
      ∃ b, wBits = some b ∧ (w < -(2 : Int) ^ (b - 1) ∨ (2 : Int) ^ (b - 1) - 1 < w) := by
  cases wBits with
  | none => simp [weightInRange]
  | some b => simp only [weightInRange, decide_eq_false_iff_not, Option.some.injEq, exists_eq_left']; omega

/-- An update overflows where one of its lanes does (R189). -/
theorem newWeights_overflow_iff (wBits : Option Nat) (g : Nat) (ws : List Int) (h : Nat) (o : Bit) :
    (newWeights g ws h o).all (weightInRange wBits) = false ↔
      ∃ b, wBits = some b ∧ ∃ j < g,
        weightAt ws j + bipolar o * bipolar (h.testBit j) < -(2 : Int) ^ (b - 1) ∨
        (2 : Int) ^ (b - 1) - 1 < weightAt ws j + bipolar o * bipolar (h.testBit j) := by
  simp only [List.all_eq_false, mem_newWeights, Bool.not_eq_true, weightInRange_eq_false_iff]
  constructor
  · rintro ⟨_, ⟨j, hj, rfl⟩, b, hb, hout⟩
    exact ⟨b, hb, j, hj, hout⟩
  · rintro ⟨b, hb, j, hj, hout⟩
    exact ⟨_, ⟨j, hj, rfl⟩, b, hb, hout⟩

/-- A training step fails exactly where an update is due and overflows (R192). -/
theorem pTrainStep_eq_none_iff (P : Params) (g theta : Nat) (t : PerceptronTables) (pc : Pc) (o : Bit) :
    pTrainStep P g theta t pc o = none ↔ pNeedUpdate theta (pDot P g t pc) o = true ∧
      (newWeights g (pEntry g t (pIndex P g t pc)) t.pGhr o).all (weightInRange P.wBits) = false := by
  rcases pTrainStep_cases P g theta t pc o with ⟨hneed, e⟩ | ⟨hneed, hrange, e⟩ | ⟨hneed, hrange, e⟩
  · simp [hneed, e]
  · simp [hrange, e]
  · exact iff_of_true e ⟨hneed, hrange⟩

/-- The tables after a successful training step: P_GHR is shifted, and the indexed entry is written if an update is
due (R192). -/
theorem eq_of_pTrainStep {P : Params} {g theta : Nat} {t t' : PerceptronTables} {pc : Pc} {o : Bit}
    (e : pTrainStep P g theta t pc o = some t') :
    t' = { pGhr := hrShift t.pGhr o g
           pW := if pNeedUpdate theta (pDot P g t pc) o then
               Table.write (zeroWeights g) t.pW (pIndex P g t pc)
                 (newWeights g (pEntry g t (pIndex P g t pc)) t.pGhr o)
             else t.pW } := by
  rcases pTrainStep_cases P g theta t pc o with ⟨hneed, e'⟩ | ⟨hneed, -, e'⟩ | ⟨-, -, e'⟩ <;> rw [e] at e'
  · rw [hneed]
    exact Option.some.inj e'
  · rw [hneed]
    exact Option.some.inj e'
  · exact nomatch e'

/-- P_GHR after a successful training step, updated or not (R190). -/
theorem pGhr_of_pTrainStep {P : Params} {g theta : Nat} {t t' : PerceptronTables} {pc : Pc} {o : Bit}
    (e : pTrainStep P g theta t pc o = some t') : t'.pGhr = (2 * t.pGhr + o.toNat) % 2 ^ g := by
  rw [eq_of_pTrainStep e, hrShift_eq]

/-- Every entry after a successful training step: only the indexed one moves, and only if an update is due (R188). -/
theorem pEntry_of_pTrainStep {P : Params} {g theta : Nat} {t t' : PerceptronTables} {pc : Pc} {o : Bit}
    (h : PerceptronOk P g t) (e : pTrainStep P g theta t pc o = some t') (i : Nat) :
    pEntry g t' i =
      if i = pIndex P g t pc ∧ pNeedUpdate theta (pDot P g t pc) o = true then newWeights g (pEntry g t i) t.pGhr o
      else pEntry g t i := by
  obtain ⟨-, hcanon, -, -⟩ := h
  rw [eq_of_pTrainStep e]
  cases pNeedUpdate theta (pDot P g t pc) o with
  | false => exact (if_neg nofun).symm
  | true =>
    refine (Table.read_write _ i _ hcanon).trans ?_
    by_cases hi : i = pIndex P g t pc
    · rw [if_pos hi, if_pos ⟨hi, rfl⟩, hi]
    · rw [if_neg hi, if_neg fun h => hi h.1]
      rfl

/-- TRAIN of a configured perceptron raises WEIGHT_RANGE where its training step fails (R228, R189). -/
theorem trainCmd_perceptron_none {P : Params} {s : State} {g : Width} {theta : Nat} {t : PerceptronTables} {pc : Pc}
    {o : Bit} (hs : s.block = .configured (.perceptron g theta t)) (e : pTrainStep P g.toNat theta t pc o = none) :
    trainCmd P pc o s = raise .weightRange s :=
  trainCmd_none hs (by rw [runTrain, e]; rfl)

/-- TRAIN of a configured perceptron answers OK and replaces the tables where its training step succeeds (R228). -/
theorem trainCmd_perceptron_some {P : Params} {s : State} {g : Width} {theta : Nat} {t t' : PerceptronTables}
    {pc : Pc} {o : Bit} (hs : s.block = .configured (.perceptron g theta t))
    (e : pTrainStep P g.toNat theta t pc o = some t') :
    trainCmd P pc o s = respond false .ok { s with block := .configured (.perceptron g theta t') } :=
  trainCmd_some hs (by rw [runTrain, e]; rfl)

/-- Settles O34: the training step fails exactly where an update is due and overflows; where it succeeds it shifts the
history and writes the entry's lanes if an update is due. -/
theorem perceptronTrainEffect : Obligations.PerceptronTrainEffect := by
  refine ⟨fun _ _ _ => rfl, ?_⟩
  intro P s g theta t pc o hok hs k sgn w y w' update overflow
  rw [hs] at hok
  obtain ⟨-, -, ht⟩ := hok
  have hupdate : update ↔ pNeedUpdate theta (pDot P g.toNat t pc) o = true := by
    rw [pNeedUpdate_iff, pDot_eq]
    rfl
  have hfail : update ∧ overflow ↔ pTrainStep P g.toNat theta t pc o = none := by
    rw [pTrainStep_eq_none_iff, hupdate, newWeights_overflow_iff]
    rfl
  rw [hfail]
  cases e : pTrainStep P g.toNat theta t pc o with
  | none => exact ⟨fun _ => trainCmd_perceptron_none hs e, fun hsome => absurd rfl hsome⟩
  | some t' =>
    refine ⟨nofun, fun _ => ⟨t', trainCmd_perceptron_some hs e, pGhr_of_pTrainStep e, fun hu i => ⟨?_, fun hi => ?_⟩,
      fun hu i => ?_⟩⟩
    · rintro rfl j hj
      rw [pEntry_of_pTrainStep ht e, if_pos ⟨rfl, hupdate.mp hu⟩]
      exact weightAt_newWeights _ _ o hj
    · rw [pEntry_of_pTrainStep ht e, if_neg fun h => hi h.1]
    · rw [pEntry_of_pTrainStep ht e, if_neg fun h => hu (hupdate.mpr h.2)]

/-- A TRAIN that ends in a configured perceptron has made a successful training step (R192). -/
theorem pTrainStep_of_trainCmd_block {P : Params} {s : State} {g : Width} {theta : Nat} {t t' : PerceptronTables}
    {pc : Pc} {o : Bit} (hs : s.block = .configured (.perceptron g theta t))
    (h : (trainCmd P pc o s).block = .configured (.perceptron g theta t')) :
    pTrainStep P g.toNat theta t pc o = some t' := by
  cases e : pTrainStep P g.toNat theta t pc o with
  | none =>
    rw [trainCmd_perceptron_none hs e] at h
    exact nomatch h
  | some u =>
    rw [trainCmd_perceptron_some hs e] at h
    simpa only [respond_block, Block.configured.injEq, Run.perceptron.injEq, true_and, Option.some.injEq] using h

/-- An update moves every lane, since the product of two signs is odd (R188). -/
theorem weightAt_newWeights_ne {g j : Nat} (ws : List Int) (h : Nat) (o : Bit) (hj : j < g) :
    weightAt (newWeights g ws h o) j ≠ weightAt ws j := by
  have hodd := bipolar_mul_mod_two o (h.testBit j)
  rw [weightAt_newWeights ws h o hj]
  omega

/-- Settles O36: a correct and confident prediction needs no update, a wrong one does, and an update moves every
lane. -/
theorem weightsChangeSelectively : Obligations.WeightsChangeSelectively := by
  intro P s g theta t t' pc o hok hs hblock y k
  rw [hs] at hok
  obtain ⟨-, -, ht⟩ := hok
  have hentry := pEntry_of_pTrainStep ht (pTrainStep_of_trainCmd_block hs hblock)
  refine ⟨fun ⟨hcorrect, hconfident⟩ i => ?_, fun hwrong j hj => ?_⟩
  · have hkeep : ¬pNeedUpdate theta y o = true := by
      rw [pNeedUpdate_iff]
      exact not_or.mpr ⟨not_not.mpr hcorrect, not_lt.mpr hconfident⟩
    rw [hentry, if_neg fun h => hkeep h.2]
  · rw [hentry, if_pos ⟨rfl, (pNeedUpdate_iff theta y o).mpr (.inl hwrong)⟩]
    exact weightAt_newWeights_ne _ _ o hj

/-! ### The bound of the dot product (R193) -/

/-- A sign has magnitude 1 (R183). -/
theorem abs_bipolar (b : Bit) : |bipolar b| = 1 := by cases b <;> rfl

/-- A weight in range has magnitude at most `2^(W_BITS-1)` (R189). -/
theorem abs_le_of_weightInRange {b : Nat} {w : Int} (h : weightInRange (some b) w = true) : |w| ≤ 2 ^ (b - 1) := by
  obtain ⟨hlow, hhigh⟩ := of_decide_eq_true h
  exact abs_le.mpr ⟨hlow, by omega⟩

/-- The dot product of a good weight vector is at most the bias plus the largest weight in every lane. -/
theorem abs_dotWeights_le {b g : Nat} {ws : List Int} (hw : WeightsOk (some b) g ws) (h : Nat) :
    |dotWeights g ws h| ≤ 1 + (g : Int) * 2 ^ (b - 1) := by
  obtain ⟨hlen, hrange, -⟩ := hw
  have hlane : ∀ j ∈ Finset.range g, |weightAt ws j * bipolar (h.testBit j)| ≤ 2 ^ (b - 1) := fun j hj => by
    rw [abs_mul, abs_bipolar, mul_one]
    exact abs_le_of_weightInRange (hrange _ (weightAt_mem (hlen ▸ Finset.mem_range.mp hj)))
  rw [dotWeights_eq]
  calc |1 + ∑ j ∈ Finset.range g, weightAt ws j * bipolar (h.testBit j)|
    _ ≤ |1| + |∑ j ∈ Finset.range g, weightAt ws j * bipolar (h.testBit j)| := abs_add_le _ _
    _ ≤ 1 + ∑ j ∈ Finset.range g, |weightAt ws j * bipolar (h.testBit j)| := by
      rw [abs_one]
      exact Int.add_le_add_left (Finset.abs_sum_le_sum_abs _ _) 1
    _ ≤ 1 + (g : Int) * 2 ^ (b - 1) := by
      have hsum := Finset.sum_le_card_nsmul _ _ _ hlane
      rw [Finset.card_range, nsmul_eq_mul] at hsum
      exact Int.add_le_add_left hsum 1

/-- The bound is below the largest magnitude of a signed number of the accumulator's width. -/
theorem dot_bound_lt_accumulator {b : Nat} (hb : 1 ≤ b) (g : Nat) :
    1 + (g : Int) * 2 ^ (b - 1) < 2 ^ (accumulatorBits b g - 1) := by
  obtain ⟨c, rfl⟩ : ∃ c, b = c + 1 := ⟨b - 1, by omega⟩
  have hpos : 1 ≤ 2 ^ c := Nat.one_le_two_pow
  have hclog : g + 1 ≤ 2 ^ Nat.clog 2 (g + 1) := Nat.le_pow_clog (by decide) _
  have hnat : 1 + g * 2 ^ c < 2 ^ (accumulatorBits (c + 1) g - 1) :=
    calc 1 + g * 2 ^ c
      _ ≤ (g + 1) * 2 ^ c := by rw [Nat.succ_mul]; omega
      _ < (g + 1) * 2 ^ (c + 1) := Nat.mul_lt_mul_of_pos_left (Nat.pow_lt_pow_succ (by decide)) g.succ_pos
      _ ≤ 2 ^ Nat.clog 2 (g + 1) * 2 ^ (c + 1) := Nat.mul_le_mul_right _ hclog
      _ = 2 ^ (accumulatorBits (c + 1) g - 1) := by
        rw [← Nat.pow_add, accumulatorBits, Nat.add_sub_cancel, Nat.add_comm]
  exact_mod_cast hnat

/-- Settles O38: the weights are in range by the invariant, so the dot product is bounded, and the accumulator is wide
enough for the bound. -/
theorem dotProductFitsTheAccumulator : Obligations.DotProductFitsTheAccumulator := by
  intro P b g t pc hb ht
  have hbound : |pDot P g t pc| ≤ 1 + (g : Int) * 2 ^ (b - 1) :=
    abs_dotWeights_le (hb ▸ weightsOk_pEntry ht (pIndex P g t pc)) t.pGhr
  obtain ⟨hlow, hhigh⟩ := abs_lt.mp (hbound.trans_lt (dot_bound_lt_accumulator (P.wBits_pos b hb) g))
  exact ⟨pDot_eq P g t pc, hbound, hlow.le, hhigh⟩

/-! ### Parity (R195) -/

/-- A weight vector of `g` weights, each congruent to `u` modulo 2. -/
def WeightsCongruent (g u : Nat) (ws : List Int) : Prop := ws.length = g ∧ ∀ w ∈ ws, (w - u) % 2 = 0

theorem weightsCongruent_zeroWeights (g : Nat) : WeightsCongruent g 0 (zeroWeights g) :=
  ⟨List.length_replicate, fun w hw => by rw [List.eq_of_mem_replicate hw]; rfl⟩

/-- An update moves every weight by an odd number. -/
theorem WeightsCongruent.newWeights {g u : Nat} {ws : List Int} (hw : WeightsCongruent g u ws) (h : Nat) (o : Bit) :
    WeightsCongruent g (u + 1) (newWeights g ws h o) := by
  refine ⟨newWeights_length g ws h o, fun w hmem => ?_⟩
  obtain ⟨j, hj, rfl⟩ := mem_newWeights.mp hmem
  have hold := hw.2 _ (weightAt_mem (hw.1.symm ▸ hj))
  have hodd := bipolar_mul_mod_two o (h.testBit j)
  omega

theorem WeightsCongruent.foldl_newWeights {g u : Nat} {ws : List Int} (hw : WeightsCongruent g u ws)
    (ups : List (Nat × Bit)) :
    WeightsCongruent g (u + ups.length) (ups.foldl (fun ws x => Machine.newWeights g ws x.1 x.2) ws) := by
  induction ups generalizing u ws with
  | nil => exact hw
  | cons x ups ih =>
    rw [List.length_cons, Nat.add_comm ups.length, ← Nat.add_assoc]
    exact ih (hw.newWeights x.1 x.2)

/-- A sign does not change a weight's parity. -/
theorem mul_bipolar_sub_mod_two {w u : Int} (h : (w - u) % 2 = 0) (b : Bit) : (w * bipolar b - u) % 2 = 0 := by
  cases b with
  | false => rw [show bipolar false = -1 from rfl]; omega
  | true => rw [show bipolar true = 1 from rfl]; omega

/-- The dot product is the bias plus `g` terms of the weights' parity. -/
theorem WeightsCongruent.dotWeights {g u : Nat} {ws : List Int} (hw : WeightsCongruent g u ws) (h : Nat) :
    (dotWeights g ws h - (1 + (g : Int) * u)) % 2 = 0 := by
  have hterms : Machine.dotWeights g ws h - (1 + (g : Int) * u) =
      ∑ j ∈ Finset.range g, (weightAt ws j * bipolar (h.testBit j) - u) := by
    rw [dotWeights_eq, Finset.sum_sub_distrib, Finset.sum_const, Finset.card_range, nsmul_eq_mul]
    ring
  rw [hterms]
  refine Int.emod_eq_zero_of_dvd (Finset.dvd_sum fun j hj => Int.dvd_of_emod_eq_zero ?_)
  exact mul_bipolar_sub_mod_two (hw.2 _ (weightAt_mem (hw.1.symm ▸ Finset.mem_range.mp hj))) _

/-- Settles O39: `u` updates from zeros leave weights congruent to `u`, and a dot product of 0 is even. -/
theorem weightsAndDotProductKeepParity : Obligations.WeightsAndDotProductKeepParity := by
  intro g h ups ws
  have hws : WeightsCongruent g ups.length ws := by
    simpa only [Nat.zero_add] using (weightsCongruent_zeroWeights g).foldl_newWeights ups
  have hdot := hws.dotWeights h
  refine ⟨hws.2, hdot, fun hzero => ?_⟩
  rw [hzero, ← Nat.cast_mul] at hdot
  omega

end Sys2Proof.Machine

/-! ## Proofs of the facade family (44_facade.md)

When a configuration is valid, what CONFIGURE builds and what the fresh state predicts, and the answers of a block that
stays UNCONFIGURED. -/

namespace Sys2Proof.Machine

/-! ### The dispatch, NOP, PREDICT and the STATIC kind -/

/-- Settles O41. -/
theorem stepRunsTheDecodedCommand : Obligations.StepRunsTheDecodedCommand := fun _ _ _ _ => step_instr

/-- Settles O18: NOP is the response OK alone. -/
theorem nopAnswersOkInEveryMode : Obligations.NopAnswersOkInEveryMode := fun s =>
  congrArg Host.Outcome.next (respond_eq false .ok s)

/-- Settles O26. -/
theorem predictWritesNoState : Obligations.PredictWritesNoState := by
  intro s pc
  obtain ⟨pred, st, -, e⟩ := predictCmd_eq_respond blockParams pc s
  exact ⟨responseWord st pred, congrArg _ e⟩

/-- Settles O25: the run STATIC predicts Taken, and its training gives STATIC back. -/
theorem staticPredictsTakenAndNeverTrains : Obligations.StaticPredictsTakenAndNeverTrains := by
  intro s pc o hs
  refine ⟨exec_predict_configured pc hs, ?_⟩
  rw [exec_train_some hs rfl, ← hs]

/-! ### CONFIGURE -/

theorem widthLegal_iff (max : Nat) (f : BitVec 8) : widthLegal max f = true ↔ 1 ≤ f.toNat ∧ f.toNat ≤ max :=
  decide_eq_true_iff

/-- Settles O19: a case for each kind, and one for the unrecognized `kind` fields. -/
theorem configurationValidity : Obligations.ConfigurationValidity := by
  intro P kind g l p
  unfold cfgValid
  cases hk : kindOfField kind with
  | none =>
    have hcode := (kindOfField_eq_none_iff kind).mp hk
    refine iff_of_false nofun fun ⟨hkind, _⟩ => ?_
    have hlt : kind.toNat < 4 := (by decide : ∀ n ∈ [0, 1, 2, 3], n < 4) _ hkind
    omega
  | some kd =>
    have hcode := (kindOfField_eq_some_iff kind kd).mp hk
    cases kd <;> simp [← hcode, kindCode, widthLegal_iff, and_assoc]

/-- A width that is at most 32 fits the 6-bit register it is loaded into (R23, R24, R25). -/
theorem toNat_widthOfField {max : Nat} {f : BitVec 8} (hmax : max ≤ 32) (hf : f.toNat ≤ max) :
    (widthOfField f).toNat = f.toNat := by
  rw [widthOfField, BitVec.toNat_setWidth]
  exact Nat.mod_eq_of_lt (by omega)

/-- A valid CONFIGURE answers OK and replaces the block (R223, R225). -/
theorem exec_configure_valid {kind : BitVec 4} {g l p : BitVec 8} (s : State)
    (h : cfgValid blockParams kind g l p = true) :
    exec (.configure kind g l p) s =
      .next { s with block := configuredBlock blockParams kind g l p, responses := 0x00#8 :: s.responses } :=
  congrArg _ (configureCmd_valid s h)

/-- An invalid CONFIGURE answers CFG_ERR and leaves the block UNCONFIGURED (R226). -/
theorem exec_configure_invalid {kind : BitVec 4} {g l p : BitVec 8} (s : State)
    (h : cfgValid blockParams kind g l p = false) :
    exec (.configure kind g l p) s =
      .next { s with block := .unconfigured, responses := 0x10#8 :: s.responses } :=
  congrArg _ (configureCmd_invalid s h)

/-! ### The fresh state -/

/-- An untrained counter is Weakly-Not-Taken (R105). -/
@[simp] theorem ctrRead_nil (n i : Nat) : ctrRead n [] i = wn n := rfl

/-- An untrained history is 0 (R110). -/
@[simp] theorem histRead_nil (i : Nat) : histRead [] i = 0 := rfl

/-- An untrained weight vector is zeros (R36). -/
@[simp] theorem pEntry_pInit (g k : Nat) : pEntry g pInit k = zeroWeights g := rfl

/-- Settles O20: R224 makes the widths valid, so they fit their registers, and every entry of the tables of R225 is
untrained. -/
theorem configureBuildsFreshState : Obligations.ConfigureBuildsFreshState := by
  refine ⟨rfl, fun s g l p => ⟨exec_configure_valid s rfl, fun hg => ⟨?_, ?_⟩, fun ⟨hg, hl, hp⟩ => ?_⟩⟩
  · have hv : cfgValid blockParams 1 g l p = true :=
      (configurationValidity blockParams 1 g l p).mpr ⟨by decide, fun _ => hg, nofun⟩
    exact ⟨widthOfField g, gsInit, toNat_widthOfField blockParams.gMax_legal.2 hg.2, exec_configure_valid s hv, rfl,
      ctrRead_nil 2⟩
  · have hv : cfgValid blockParams 3 g l p = true :=
      (configurationValidity blockParams 3 g l p).mpr ⟨by decide, fun _ => hg, nofun⟩
    have hw := toNat_widthOfField blockParams.gMax_legal.2 hg.2
    refine ⟨widthOfField g, pInit, hw, ?_, rfl, fun i => ?_⟩
    · rw [← hw]
      exact exec_configure_valid s hv
    · rw [pEntry_pInit, hw, zeroWeights]
  · have hv : cfgValid blockParams 2 g l p = true :=
      (configurationValidity blockParams 2 g l p).mpr ⟨by decide, fun _ => hg, fun _ => ⟨hl, hp⟩⟩
    exact ⟨widthOfField g, widthOfField l, widthOfField p, tInit, toNat_widthOfField blockParams.gMax_legal.2 hg.2,
      toNat_widthOfField blockParams.lMax_legal.2 hl.2, toNat_widthOfField blockParams.pMax_legal.2 hp.2,
      exec_configure_valid s hv, ctrRead_nil 2, histRead_nil, ctrRead_nil 2, rfl, ctrRead_nil 2⟩

/-! ### What the fresh state predicts -/

/-- Weakly-Not-Taken reads Not-Taken (R102, R105). -/
@[simp] theorem scRead_wn (n : Nat) : scRead n (wn n) = false := by
  have hpos := Nat.two_pow_pos (n - 1)
  rw [scRead, wn, decide_eq_false_iff_not]
  omega

theorem gsReading_gsInit (P : Params) (g : Nat) (pc : Pc) : gsReading P g gsInit pc = false := scRead_wn P.ctrBits

theorem localReading_tInit (P : Params) (p : Nat) (pc : Pc) : localReading P p tInit.localPred pc = false :=
  scRead_wn P.ctrBits

/-- Both sub-predictors of a fresh tournament predict Not-Taken, so the selector does not matter (R155). -/
theorem tPredict_tInit (P : Params) (g p : Nat) (pc : Pc) : tPredict P g p tInit pc = false := by
  unfold tPredict
  split
  · exact localReading_tInit P p pc
  · exact gsReading_gsInit P g pc

@[simp] theorem weightAt_zeroWeights (g j : Nat) : weightAt (zeroWeights g) j = 0 := by
  simp [weightAt, zeroWeights]

/-- The dot product of zero weights is the bias (R184). -/
theorem pDot_pInit (P : Params) (g : Nat) (pc : Pc) : pDot P g pInit pc = 1 := by
  simp [pDot_eq]

/-- What a fresh run predicts depends on its kind alone (R229, R134, R155, R191). -/
theorem runPredict_initRun (P : Params) (kd : Kind) (g l p : Width) (pc : Pc) :
    runPredict P (initRun P kd g l p) pc = decide (kd = .static ∨ kd = .perceptron) := by
  cases kd with
  | static => rfl
  | gshare => exact gsReading_gsInit P g.toNat pc
  | tournament => exact tPredict_tInit P g.toNat p.toNat pc
  | perceptron => rw [initRun, runPredict, pDot_pInit]; rfl

/-- A valid configuration has a recognized kind, and its block is that kind's fresh run (R224, R225). -/
theorem configuredBlock_of_cfgValid {P : Params} {kind : BitVec 4} {g l p : BitVec 8}
    (h : cfgValid P kind g l p = true) : ∃ kd, kindOfField kind = some kd ∧
      configuredBlock P kind g l p
        = .configured (initRun P kd (widthOfField g) (widthOfField l) (widthOfField p)) := by
  cases hk : kindOfField kind with
  | none => simp [cfgValid, hk] at h
  | some kd => exact ⟨kd, rfl, by simp [configuredBlock, hk]⟩

/-- Settles O40: the state after the CONFIGURE holds the fresh run of its kind. -/
theorem freshPredictions : Obligations.FreshPredictions := by
  intro s t kind g l p pc hv ht
  obtain rfl := Host.Outcome.next.inj ((exec_configure_valid s hv).symm.trans ht)
  obtain ⟨kd, hk, hblock⟩ := configuredBlock_of_cfgValid hv
  have hcode := (kindOfField_eq_some_iff kind kd).mp hk
  rw [exec_predict_configured pc hblock, runPredict_initRun]
  cases kd <;> simp [← BitVec.toNat_inj, ← hcode, kindCode]

/-! ### A block that stays UNCONFIGURED -/

/-- PREDICT of an UNCONFIGURED block answers NOT_CONFIGURED and changes nothing else (R263). -/
theorem exec_predict_unconfigured {s : State} (pc : Pc) (hb : s.block = .unconfigured) :
    exec (.predict pc) s = .next { s with responses := 0x20#8 :: s.responses } :=
  congrArg _ (predictCmd_unconfigured pc hb)

/-- TRAIN of an UNCONFIGURED block answers NOT_CONFIGURED and changes nothing else (R263). -/
theorem exec_train_unconfigured {s : State} (pc : Pc) (o : Bit) (hb : s.block = .unconfigured) :
    exec (.train pc o) s = .next { s with responses := 0x20#8 :: s.responses } :=
  congrArg _ (trainCmd_unconfigured pc o hb)

/-- The input is not a CONFIGURE that succeeds. -/
def NoValidConfigure (h : HostInput) : Prop :=
  ∀ c k a b d, h = .command c → decode c = .instr (.configure k a b d) → cfgValid blockParams k a b d = false

/-- How an UNCONFIGURED block answers an input that is not a valid CONFIGURE (R222, R226, R261, R263). -/
def unconfiguredAnswer (h : HostInput) : Option Byte :=
  match h with
  | .reset => none
  | .command c =>
    match decode c with
    | .illegal _ => some 0x30#8
    | .instr .nop => some 0x00#8
    | .instr (.configure _ _ _ _) => some 0x10#8
    | .instr (.predict _) => some 0x20#8
    | .instr (.train _ _) => some 0x20#8

/-- The step of an UNCONFIGURED block on an input that is not a valid CONFIGURE: it stays UNCONFIGURED. -/
theorem step_unconfigured {s : State} {h : HostInput} {rest : List HostInput} (hb : s.block = .unconfigured)
    (e : s.inputs = h :: rest) (hv : NoValidConfigure h) :
    step s = .next { block := .unconfigured, inputs := rest,
                     responses := (unconfiguredAnswer h).toList ++ s.responses } := by
  obtain ⟨b, xs, rs⟩ := s
  obtain rfl : b = .unconfigured := hb
  obtain rfl : xs = h :: rest := e
  cases h with
  | reset => exact step_reset rfl
  | command c =>
    cases d : decode c with
    | illegal cause =>
      simp only [unconfiguredAnswer, d]
      exact step_illegal rfl d
    | instr i =>
      rw [step_instr rfl d]
      simp only [unconfiguredAnswer, d]
      cases i with
      | nop => rfl
      | configure k a b p => exact exec_configure_invalid _ (hv c k a b p rfl d)
      | predict pc => exact exec_predict_unconfigured pc rfl
      | train pc o => exact exec_train_unconfigured pc o rfl

/-- The run of an UNCONFIGURED block that is sent no valid CONFIGURE. -/
theorem run_unconfigured (n : Nat) (xs : List HostInput) (s : State) (hb : s.block = .unconfigured)
    (e : s.inputs = xs) (hv : ∀ h ∈ xs, NoValidConfigure h) :
    Host.Core.run Sys2Proof.core n s =
      .next { block := .unconfigured, inputs := xs.drop n,
              responses := ((xs.take n).filterMap unconfiguredAnswer).reverse ++ s.responses } := by
  induction n generalizing xs s with
  | zero => rw [← hb, ← e]; rfl
  | succ n ih =>
    cases xs with
    | nil => simpa using (run_succ n (step_idle e)).trans (ih [] s hb e hv)
    | cons h xs =>
      obtain ⟨hh, hxs⟩ := List.forall_mem_cons.mp hv
      rw [run_succ n (step_unconfigured hb e hh), ih xs _ rfl rfl hxs]
      cases ha : unconfiguredAnswer h <;> simp [ha]

/-- Settles O57: the failed CONFIGURE leaves the block UNCONFIGURED, and the run goes on from there. -/
theorem failedConfigureLeavesUnconfiguredUntilOneSucceeds :
    Obligations.FailedConfigureLeavesUnconfiguredUntilOneSucceeds := by
  intro s kind g l p rest n e hinvalid hrest
  have hfirst := (step_instr e (decode_encode _)).trans (exec_configure_invalid _ hinvalid)
  exact ⟨_, ((rest.take n).filterMap unconfiguredAnswer).reverse,
    (run_succ n hfirst).trans (run_unconfigured n rest _ rfl rfl hrest), rfl, rfl, List.reverse_reverse _⟩

end Sys2Proof.Machine

/-! ## Proofs of the exceptions family (60_exceptions.md)

The status of each command as a function of the command and the block, what a command that ends with it has done, and
the two statements in which no status is raised: unbounded weights and aliased addresses. -/

namespace Sys2Proof.Machine

/-! ### The status of a command (R266) -/

/-- The status CONFIGURE ends with (R262). -/
def configureStatus (P : Params) (kind : BitVec 4) (g l p : BitVec 8) : Status :=
  if cfgValid P kind g l p then .ok else .cfgErr

/-- The status PREDICT ends with (R263, R265). -/
def predictStatus : Block → Status
  | .unconfigured => .notConfigured
  | .configured _ => .ok
  | .faulted => .faulted

/-- The status TRAIN ends with (R263, R264, R265). -/
def trainStatus (P : Params) (pc : Pc) (o : Bit) : Block → Status
  | .unconfigured => .notConfigured
  | .configured r => if runTrain P r pc o = none then .weightRange else .ok
  | .faulted => .faulted

/-- The status a command ends with. -/
def commandStatus (P : Params) (i : Instr) (b : Block) : Status :=
  match i with
  | .nop => .ok
  | .configure kind g l p => configureStatus P kind g l p
  | .predict _ => predictStatus b
  | .train pc o => trainStatus P pc o b

/-- WEIGHT_RANGE is the status of a PERCEPTRON's update that is due and leaves the range (R189, R264). -/
theorem trainStatus_eq_weightRange_iff (P : Params) (pc : Pc) (o : Bit) (b : Block) :
    trainStatus P pc o b = .weightRange ↔
      ∃ g theta t, b = .configured (.perceptron g theta t) ∧ pTrainStep P g.toNat theta t pc o = none := by
  constructor
  · intro h
    cases b with
    | unconfigured => exact nomatch h
    | faulted => exact nomatch h
    | configured r =>
      have e : runTrain P r pc o = none := by
        by_contra hsome
        exact nomatch (if_neg hsome).symm.trans h
      obtain ⟨g, theta, t, rfl, ep⟩ := runTrain_none e
      exact ⟨g, theta, t, rfl, ep⟩
  · rintro ⟨g, theta, t, rfl, e⟩
    exact if_pos (by rw [runTrain, e]; rfl)

/-! ### What a command does that ends with a status (R267) -/

/-- `t` is the machine `s` after a command that ended with the status `st`: one response, and if `st` is an error no
change of the block but the one `st` names. -/
def Answers (st : Status) (s t : State) : Prop :=
  ∃ (pred : Bit) (b : Block), (st ≠ .ok → b = statusEffect st s.block) ∧ t = respond pred st { s with block := b }

theorem answers_ok (pred : Bit) (s : State) (b : Block) : Answers .ok s (respond pred .ok { s with block := b }) :=
  ⟨pred, b, fun h => absurd rfl h, rfl⟩

theorem answers_raise (st : Status) (s : State) : Answers st s (raise st s) := ⟨false, _, fun _ => rfl, rfl⟩

theorem answers_nopCmd (s : State) : Answers .ok s (nopCmd s) := answers_ok false s s.block

theorem answers_configureCmd (P : Params) (kind : BitVec 4) (g l p : BitVec 8) (s : State) :
    Answers (configureStatus P kind g l p) s (configureCmd P kind g l p s) := by
  unfold configureStatus
  cases hv : cfgValid P kind g l p with
  | true =>
    rw [configureCmd_valid s hv]
    exact answers_ok false s _
  | false =>
    rw [configureCmd_invalid s hv]
    exact answers_raise .cfgErr s

theorem answers_predictCmd (P : Params) (pc : Pc) (s : State) :
    Answers (predictStatus s.block) s (predictCmd P pc s) := by
  cases hb : s.block with
  | unconfigured =>
    rw [predictCmd_unconfigured pc hb]
    exact answers_raise .notConfigured s
  | configured r =>
    rw [predictCmd_configured pc hb]
    exact answers_ok _ s s.block
  | faulted =>
    rw [predictCmd_faulted pc hb]
    exact answers_raise .faulted s

theorem answers_trainCmd (P : Params) (pc : Pc) (o : Bit) (s : State) :
    Answers (trainStatus P pc o s.block) s (trainCmd P pc o s) := by
  cases hb : s.block with
  | unconfigured =>
    rw [trainCmd_unconfigured pc o hb]
    exact answers_raise .notConfigured s
  | configured r =>
    cases e : runTrain P r pc o with
    | none =>
      rw [trainCmd_none hb e, trainStatus, if_pos e]
      exact answers_raise .weightRange s
    | some r' =>
      rw [trainCmd_some hb e, trainStatus, if_neg (by simp [e])]
      exact answers_ok false s _
  | faulted =>
    rw [trainCmd_faulted pc o hb]
    exact answers_raise .faulted s

/-- Every command ends in a next state, with its status. -/
theorem exec_answers (i : Instr) (s : State) :
    ∃ t, exec i s = .next t ∧ Answers (commandStatus blockParams i s.block) s t := by
  cases i with
  | nop => exact ⟨_, rfl, answers_nopCmd s⟩
  | configure kind g l p => exact ⟨_, rfl, answers_configureCmd blockParams kind g l p s⟩
  | predict pc => exact ⟨_, rfl, answers_predictCmd blockParams pc s⟩
  | train pc o => exact ⟨_, rfl, answers_trainCmd blockParams pc o s⟩

namespace Answers

variable {st : Status} {s t : State}

/-- The response carries the status (R78). -/
theorem response (h : Answers st s t) : ∃ r, t.responses = r :: s.responses ∧ statusField r = statusCode st := by
  obtain ⟨pred, b, -, rfl⟩ := h
  exact ⟨_, rfl, statusField_responseWord st pred⟩

/-- Only WEIGHT_RANGE is answered 0x40 (R260). -/
theorem eq_weightRange (h : Answers st s t) (hr : t.responses = 0x40#8 :: s.responses) : st = .weightRange := by
  obtain ⟨r, hresp, hcode⟩ := h.response
  obtain rfl : r = 0x40#8 := (List.cons.inj (hresp.symm.trans hr)).1
  cases st with
  | weightRange => rfl
  | _ => exact absurd hcode (by decide)

end Answers

/-- Settles O45: a command writes what its status names, and the response carries that status's code. -/
theorem errorsAreAtomic : Obligations.ErrorsAreAtomic := by
  refine ⟨raise_eq .illegalCmd, fun i s => ?_⟩
  obtain ⟨_, he, pred, b, hb, rfl⟩ := exec_answers i s
  refine ⟨b, _, he, ?_⟩
  rw [statusField_responseWord]
  generalize commandStatus blockParams i s.block = st at hb
  cases st with
  | ok => exact absurd rfl
  | _ => exact fun _ => hb nofun

/-- The range check of R189 fires where an update is due and one of the new weights is out of range. -/
theorem rangeCheck_eq_true_iff (P : Params) (g theta : Nat) (t : PerceptronTables) (pc : Pc) (o : Bit) :
    (pNeedUpdate theta (pDot P g t pc) o &&
      (newWeights g (pEntry g t (pIndex P g t pc)) t.pGhr o).any (fun w => !weightInRange P.wBits w)) = true ↔
    pTrainStep P g theta t pc o = none := by
  rw [pTrainStep_eq_none_iff, Bool.and_eq_true, ← List.not_all_eq_any_not, Bool.not_eq_true']

/-- The code of a PERCEPTRON TRAIN's status, by the range check. -/
theorem statusCode_trainStatus_perceptron (P : Params) (pc : Pc) (o : Bit) (g : Width) (theta : Nat)
    (t : PerceptronTables) :
    statusCode (trainStatus P pc o (.configured (.perceptron g theta t))) =
      if pNeedUpdate theta (pDot P g.toNat t pc) o &&
        (newWeights g.toNat (pEntry g.toNat t (pIndex P g.toNat t pc)) t.pGhr o).any
          (fun w => !weightInRange P.wBits w) then 4#4 else 0#4 := by
  simp only [rangeCheck_eq_true_iff, trainStatus, runTrain, Option.map_eq_none_iff]
  exact apply_ite statusCode _ _ _

/-- Settles O46: an illegal word is answered before the block is looked at, and a command with its own status. -/
theorem statusPriority : Obligations.StatusPriority := by
  intro s c rest e
  cases d : decode c with
  | illegal cause => exact ⟨_, _, step_illegal e d, rfl, statusField_responseWord .illegalCmd false⟩
  | instr i =>
    obtain ⟨t, he, hans⟩ := exec_answers i { s with inputs := rest }
    obtain ⟨r, hresp, hcode⟩ := hans.response
    refine ⟨t, r, (step_instr e d).trans he, hresp, hcode.trans ?_⟩
    cases i with
    | nop => rfl
    | configure kind g l p => exact apply_ite statusCode _ _ _
    | predict pc => cases s.block <;> rfl
    | train pc o =>
      show statusCode (trainStatus blockParams pc o s.block) = _
      cases s.block with
      | unconfigured => rfl
      | faulted => rfl
      | configured run =>
        cases run with
        | perceptron g theta tabs => exact statusCode_trainStatus_perceptron blockParams pc o g theta tabs
        | _ => rfl

/-- Settles O35: WEIGHT_RANGE is raised where the training step fails, and the response 0x40 is that status alone. -/
theorem weightRangeFaultsTheBlock : Obligations.WeightRangeFaultsTheBlock := by
  intro P s pc o
  refine ⟨?_, fun hr => ?_, fun hr => ?_, fun kind g l p hr => ?_, fun hr => ?_, fun hr => ?_⟩
  · rintro ⟨b, g, theta, t, hbits, hs, hneed, hout⟩
    refine trainCmd_perceptron_none hs ((pTrainStep_eq_none_iff P g.toNat theta t pc o).mpr ⟨hneed, ?_⟩)
    exact (newWeights_overflow_iff P.wBits g.toNat _ t.pGhr o).mpr ⟨b, hbits, hout⟩
  · have hst := (answers_trainCmd P pc o s).eq_weightRange hr
    obtain ⟨g, theta, t, hs, e⟩ := (trainStatus_eq_weightRange_iff P pc o s.block).mp hst
    obtain ⟨hneed, hrange⟩ := (pTrainStep_eq_none_iff P g.toNat theta t pc o).mp e
    refine ⟨wBits_ne_none_of_pTrainStep e, by rw [trainCmd_perceptron_none hs e]; rfl, g, theta, t, hs, hneed, ?_⟩
    simpa only [List.all_eq_false, Bool.not_eq_true] using hrange
  · exact nomatch (answers_nopCmd s).eq_weightRange hr
  · have hst := (answers_configureCmd P kind g l p s).eq_weightRange hr
    unfold configureStatus at hst
    split at hst <;> exact nomatch hst
  · have hst := (answers_predictCmd P pc s).eq_weightRange hr
    cases hb : s.block <;> exact nomatch hb ▸ hst
  · exact nomatch (answers_raise .illegalCmd s).eq_weightRange hr

/-! ### CFG_ERR, NOT_CONFIGURED and FAULTED -/

/-- Settles O21: each of the causes contradicts R224. -/
theorem configureRejectsInvalid : Obligations.ConfigureRejectsInvalid := by
  intro s kind g l p hcause
  refine exec_configure_invalid s (Bool.eq_false_iff.mpr fun hv => ?_)
  obtain ⟨hkind, hg, hlp⟩ := (configurationValidity blockParams kind g l p).mp hv
  simp only [List.mem_cons, List.not_mem_nil, or_false] at hkind hg
  omega

/-- Settles O23. -/
theorem unconfiguredAnswersNotConfigured : Obligations.UnconfiguredAnswersNotConfigured :=
  fun _ pc o hb => ⟨exec_predict_unconfigured pc hb, exec_train_unconfigured pc o hb⟩

/-- PREDICT of a FAULTED block answers FAULTED and changes nothing else (R265). -/
theorem exec_predict_faulted {s : State} (pc : Pc) (hb : s.block = .faulted) :
    exec (.predict pc) s = .next { s with responses := 0x50#8 :: s.responses } :=
  congrArg _ (predictCmd_faulted pc hb)

/-- TRAIN of a FAULTED block answers FAULTED and changes nothing else (R265). -/
theorem exec_train_faulted {s : State} (pc : Pc) (o : Bit) (hb : s.block = .faulted) :
    exec (.train pc o) s = .next { s with responses := 0x50#8 :: s.responses } :=
  congrArg _ (trainCmd_faulted pc o hb)

/-- Settles O24: every command but CONFIGURE leaves the FAULTED block as it is. -/
theorem faultedIsSticky : Obligations.FaultedIsSticky := by
  refine ⟨fun s pc o hb => ⟨exec_predict_faulted pc hb, exec_train_faulted pc o hb, nopAnswersOkInEveryMode s⟩,
    fun s t i hb he ht => ?_, fun s hb => ⟨hb, rfl⟩⟩
  cases i with
  | configure kind g l p => exact ⟨kind, g, l, p, rfl⟩
  | nop =>
    obtain rfl := Host.Outcome.next.inj he
    exact absurd hb ht
  | predict pc =>
    obtain rfl := Host.Outcome.next.inj ((exec_predict_faulted pc hb).symm.trans he)
    exact absurd hb ht
  | train pc o =>
    obtain rfl := Host.Outcome.next.inj ((exec_train_faulted pc o hb).symm.trans he)
    exact absurd hb ht

/-- Settles O42. -/
theorem stepOnOtherInputs : Obligations.StepOnOtherInputs :=
  ⟨fun _ _ _ _ => step_illegal, fun _ _ => step_reset, fun _ => step_idle⟩

/-! ### Unbounded weights -/

/-- With unbounded weights every training succeeds (R278). -/
theorem runTrain_unbounded {P : Params} (h : P.wBits = none) (r : Run) (pc : Pc) (o : Bit) :
    ∃ r', runTrain P r pc o = some r' := by
  refine Option.ne_none_iff_exists'.mp fun e => ?_
  obtain ⟨g, theta, t, -, ep⟩ := runTrain_none e
  exact wBits_ne_none_of_pTrainStep ep h

/-- Settles O49. -/
theorem unboundedRunsNeverFail : Obligations.UnboundedRunsNeverFail := by
  intro P s r pc o hbits hs
  obtain ⟨r', e⟩ := runTrain_unbounded hbits r pc o
  exact ⟨⟨_, predictCmd_configured pc hs, statusField_responseWord .ok _⟩, r', trainCmd_some hs e⟩

/-! ### Aliased addresses (R276)

A run reads a pc only through its table indexes, so everything a PREDICT or a TRAIN computes agrees for two pcs whose
indexes agree. -/

section Aliased

variable {P : Params} {pc pc' : Pc}

theorem gsIndex_congr {g : Nat} (h : pc.toNat % 2 ^ g = pc'.toNat % 2 ^ g) (t : GshareTables) :
    gsIndex g t pc = gsIndex g t pc' := by
  rw [gsIndex_eq, gsIndex_eq, h]

theorem gsReading_congr {g : Nat} (h : pc.toNat % 2 ^ g = pc'.toNat % 2 ^ g) (t : GshareTables) :
    gsReading P g t pc = gsReading P g t pc' := by
  rw [gsReading, gsReading, gsIndex_congr h]

theorem gsTrainStep_congr {g : Nat} (h : pc.toNat % 2 ^ g = pc'.toNat % 2 ^ g) (t : GshareTables) (o : Bit) :
    gsTrainStep P g t pc o = gsTrainStep P g t pc' o := by
  rw [gsTrainStep, gsTrainStep, gsIndex_congr h]

theorem tPcIdx_congr {p : Nat} (h : pc.toNat % 2 ^ p = pc'.toNat % 2 ^ p) : tPcIdx p pc = tPcIdx p pc' := by
  rw [tPcIdx_eq, tPcIdx_eq, h]

theorem localReading_congr {p : Nat} (h : pc.toNat % 2 ^ p = pc'.toNat % 2 ^ p) (t : LocalTables) :
    localReading P p t pc = localReading P p t pc' := by
  rw [localReading, localReading, tLIdx, tLIdx, tPcIdx_congr h]

theorem tPredict_congr {g p : Nat} (hg : pc.toNat % 2 ^ g = pc'.toNat % 2 ^ g)
    (hp : pc.toNat % 2 ^ p = pc'.toNat % 2 ^ p) (t : TournamentTables) :
    tPredict P g p t pc = tPredict P g p t pc' := by
  rw [tPredict, tPredict, metaReading, metaReading, tPcIdx_congr hp, localReading_congr hp, gsReading_congr hg]

theorem tTrainStep_congr {g l p : Nat} (hg : pc.toNat % 2 ^ g = pc'.toNat % 2 ^ g)
    (hp : pc.toNat % 2 ^ p = pc'.toNat % 2 ^ p) (t : TournamentTables) (o : Bit) :
    tTrainStep P g l p t pc o = tTrainStep P g l p t pc' o := by
  simp only [tTrainStep, metaTrain, localTrainStep, tLIdx, tPcIdx_congr hp, localReading_congr hp, gsReading_congr hg,
    gsTrainStep_congr hg]

theorem pIndex_congr {g : Nat} (h : pc.toNat % 2 ^ g = pc'.toNat % 2 ^ g) (t : PerceptronTables) :
    pIndex P g t pc = pIndex P g t pc' := by
  rw [pIndex_eq, pIndex_eq, Nat.xor_mod_two_pow, Nat.xor_mod_two_pow, h]

theorem pDot_congr {g : Nat} (h : pc.toNat % 2 ^ g = pc'.toNat % 2 ^ g) (t : PerceptronTables) :
    pDot P g t pc = pDot P g t pc' := by
  rw [pDot, pDot, pIndex_congr h]

theorem pTrainStep_congr {g : Nat} (h : pc.toNat % 2 ^ g = pc'.toNat % 2 ^ g) (theta : Nat) (t : PerceptronTables)
    (o : Bit) : pTrainStep P g theta t pc o = pTrainStep P g theta t pc' o := by
  rw [pTrainStep, pTrainStep, pIndex_congr h, pDot_congr h]

/-- A command reads a pc only through the run of a configured block (R227, R228). -/
theorem exec_congr_pc {s : State} {o : Bit}
    (h : ∀ r, s.block = .configured r →
      runPredict blockParams r pc = runPredict blockParams r pc' ∧
      runTrain blockParams r pc o = runTrain blockParams r pc' o) :
    exec (.predict pc) s = exec (.predict pc') s ∧ exec (.train pc o) s = exec (.train pc' o) s := by
  cases hb : s.block with
  | unconfigured =>
    simp only [exec_predict_unconfigured _ hb, exec_train_unconfigured _ _ hb, and_self]
  | faulted =>
    simp only [exec_predict_faulted _ hb, exec_train_faulted _ _ hb, and_self]
  | configured r =>
    obtain ⟨hpredict, htrain⟩ := h r hb
    rw [exec_predict_configured pc hb, exec_predict_configured pc' hb, hpredict]
    refine ⟨rfl, congrArg Host.Outcome.next ?_⟩
    simp only [trainCmd, hb, htrain]

end Aliased

/-- Settles O50: the index bits each kind uses determine what it predicts and how it trains. -/
theorem aliasedAddressesAreIndistinguishable : Obligations.AliasedAddressesAreIndistinguishable := by
  intro s pc pc' o halias
  refine exec_congr_pc fun r hb => ?_
  rw [hb] at halias
  cases r with
  | static => exact ⟨rfl, rfl⟩
  | gshare g t => exact ⟨gsReading_congr halias t, by rw [runTrain, runTrain, gsTrainStep_congr halias]⟩
  | tournament g l p t =>
    obtain ⟨hg, hp⟩ := halias
    exact ⟨tPredict_congr hg hp t, by rw [runTrain, runTrain, tTrainStep_congr hg hp]⟩
  | perceptron g theta t =>
    exact ⟨by rw [runPredict, runPredict, pDot_congr halias], by rw [runTrain, runTrain, pTrainStep_congr halias]⟩

end Sys2Proof.Machine

/-! ## Proofs of the reset and hazards family (70_reset_and_hazards.md)

The state right after reset, the CONFIGURE that forgets the run before it, and the host's protocol: between a PREDICT
and its TRAIN only inputs that write nothing may stand. -/

namespace Sys2Proof.Machine

/-! ### Reset and reconfiguration -/

/-- Settles O43. -/
theorem resetLeavesUnconfigured : Obligations.ResetLeavesUnconfigured :=
  ⟨resetBlock_block, reset_block, congrArg modeOf reset_block, rfl⟩

/-- Settles O53: an UNCONFIGURED block has no table to be out of its domain, and no response has been delivered. -/
theorem resetMeetsTheInvariant : Obligations.ResetMeetsTheInvariant := by
  refine ⟨?_, fun r hr => ?_⟩
  · rw [reset_block]
    exact trivial
  · rw [reset_responses] at hr
    exact absurd hr List.not_mem_nil

/-- Settles O22: what a CONFIGURE leaves and answers is the same for every state, the one after reset among them. -/
theorem configureForgetsTheFormerState : Obligations.ConfigureForgetsTheFormerState := by
  intro s kind g l p
  obtain ⟨b, r, hconf⟩ := exec_configure_cases kind g l p
  exact ⟨b, r, hconf s, hconf State.reset⟩

/-! ### What the protocol says of each input (R294, R295) -/

/-- The input is not a TRAIN. -/
def NotATrain (h : HostInput) : Prop := ∀ c q b, h = .command c → decode c ≠ .instr (.train q b)

/-- A PREDICT may come when no TRAIN is still to come, and then its own is. -/
theorem followsProtocol_predict {c : Word} {pc : Pc} (d : decode c = .instr (.predict pc)) (inFlight : Option Pc)
    (rest : List HostInput) :
    followsProtocol inFlight (.command c :: rest) = (inFlight.isNone && followsProtocol (some pc) rest) := by
  simp only [followsProtocol, d]

/-- A TRAIN may come for the pc in flight only, and ends its flight. -/
theorem followsProtocol_train {c : Word} {pc : Pc} {o : Bit} (d : decode c = .instr (.train pc o))
    (inFlight : Option Pc) (rest : List HostInput) :
    followsProtocol inFlight (.command c :: rest) = (inFlight == some pc && followsProtocol none rest) := by
  simp only [followsProtocol, d]

/-- While a TRAIN is still to come, every other input the protocol allows is a NOP or an illegal word: it writes
nothing and the TRAIN stays to come. -/
theorem not_mayWrite_of_followsProtocol {pc : Pc} {h : HostInput} {rest : List HostInput} (hn : NotATrain h)
    (hf : followsProtocol (some pc) (h :: rest) = true) :
    mayWrite h = false ∧ followsProtocol (some pc) rest = true := by
  cases h with
  | reset => simp [followsProtocol] at hf
  | command c =>
    cases d : decode c with
    | illegal cause => simpa [mayWrite, followsProtocol, d] using hf
    | instr i =>
      cases i with
      | nop => simpa [mayWrite, followsProtocol, d] using hf
      | configure kind g l p => simp [followsProtocol, d] at hf
      | predict q => simp [followsProtocol_predict d] at hf
      | train q b => exact absurd d (hn c q b rfl)

/-- The same for all inputs before the TRAIN. -/
theorem forall_not_mayWrite_of_followsProtocol {pc : Pc} {mid rest : List HostInput} (hn : ∀ h ∈ mid, NotATrain h)
    (hf : followsProtocol (some pc) (mid ++ rest) = true) :
    (∀ h ∈ mid, mayWrite h = false) ∧ followsProtocol (some pc) rest = true := by
  induction mid with
  | nil => exact ⟨nofun, hf⟩
  | cons h mid ih =>
    obtain ⟨hh, hmid⟩ := List.forall_mem_cons.mp hn
    obtain ⟨hw, hf⟩ := not_mayWrite_of_followsProtocol hh hf
    obtain ⟨hws, hrest⟩ := ih hmid hf
    exact ⟨List.forall_mem_cons.mpr ⟨hw, hws⟩, hrest⟩

/-! ### The run from a PREDICT to its TRAIN (R297) -/

/-- A run over inputs that may not write takes them and keeps the block (R40). -/
theorem run_of_not_mayWrite {xs rest : List HostInput} {s : State} (e : s.inputs = xs ++ rest)
    (hw : ∀ h ∈ xs, mayWrite h = false) :
    ∃ t : State, Host.Core.run Sys2Proof.core xs.length s = .next t ∧ t.inputs = rest ∧ t.block = s.block := by
  induction xs generalizing s with
  | nil => exact ⟨s, rfl, e, rfl⟩
  | cons h xs ih =>
    obtain ⟨hh, hxs⟩ := List.forall_mem_cons.mp hw
    obtain ⟨u, hstep, hin, hblock⟩ := step_of_not_mayWrite e hh
    obtain ⟨t, hrun, hin', hblock'⟩ := ih hin hxs
    exact ⟨t, (run_succ _ hstep).trans hrun, hin', hblock'.trans hblock⟩

/-- Settles O56: neither the PREDICT nor what the protocol allows before its TRAIN writes the block, and the TRAIN
carries the pc in flight. -/
theorem trainMeetsTheBlockItsPredictMet : Obligations.TrainMeetsTheBlockItsPredictMet := by
  intro s c₁ c₂ pc pc' o mid rest e d₁ d₂ hmid hf
  rw [e, followsProtocol_predict d₁] at hf
  obtain ⟨hws, hf⟩ := forall_not_mayWrite_of_followsProtocol hmid hf
  have hpc : pc = pc' := by
    rw [followsProtocol_train d₂, Bool.and_eq_true, beq_iff_eq] at hf
    exact Option.some.inj hf.1
  have hpredict : mayWrite (.command c₁) = false := by simp only [mayWrite, d₁]
  obtain ⟨t, hrun, hin, hblock⟩ :=
    run_of_not_mayWrite (xs := .command c₁ :: mid) e (List.forall_mem_cons.mpr ⟨hpredict, hws⟩)
  exact ⟨t, hrun, hin, hblock, hpc.symm⟩

end Sys2Proof.Machine
